-- ==== Sys2Proof/Word.lean ====
section
/-! DEFINITION. The values of the hardware: levels, bytes, nibbles and request words (00_scope.md section 5.1).
There are no signed values. -/

namespace Sys2Proof

/-- A level of a line: `false` is low (0), `true` is high (1) (00_scope.md section 5.1, 30_encoding.md R55). -/
abbrev Level := Bool

/-- A byte, bit 0 least significant (00_scope.md section 5.1). -/
abbrev Byte := BitVec 8

/-- A nibble, bit 0 least significant (00_scope.md section 5.1). -/
abbrev Nibble := BitVec 4

/-- A request word of format `REQ9`: bit 8 is `F`, bits 7:0 are `B` (30_encoding.md R56). -/
abbrev Req9 := BitVec 9

end Sys2Proof
end

