-- ==== Sys2Proof/Config.lean ====
section
/-! DEFINITION. What is fixed when the block is constructed (00_scope.md R7), and the free values: what the spec
leaves open and no proof may know. -/

namespace Sys2Proof

/-- `BUS_WIDTH`: there are exactly two variants (00_scope.md R2). -/
inductive BusWidth where
  | eight
  | four
  deriving DecidableEq, Repr

/-- `N_DATA` (00_scope.md R7). -/
def BusWidth.nData : BusWidth → Nat
  | .eight => 8
  | .four => 4

/-- `N_LINES = N_DATA + 2`: ten lines or six (00_scope.md R7, 90_conflicts.md C1). -/
def BusWidth.nLines (bw : BusWidth) : Nat := bw.nData + 2

/-- `N_PULSES`: one enable pulse per byte in the 8-bit variant, two in the 4-bit variant (00_scope.md R7). -/
def BusWidth.nPulses : BusWidth → Nat
  | .eight => 1
  | .four => 2

/-- The variant of a number of data wires; no instance of another width exists (92_eei_decisions.md D22). -/
def BusWidth.ofNat? : Nat → Option BusWidth
  | 8 => some .eight
  | 4 => some .four
  | _ => none

/-- The construction parameters of 00_scope.md R7. `dbReset = none` is the spec's `DB_RESET` = "no value"; of a
given value the 4-bit variant takes the low nibble. `T_STEP` is left out: the model has no time
(70_reset_and_hazards.md R156, R160; notes/assumptions/16.md). -/
structure Params where
  busWidth : BusWidth
  tPulseMs : Nat
  lineFallible : Bool
  dataAtomic : Bool
  rsReset : Level
  enReset : Level
  dbReset : Option Byte
  deriving DecidableEq, Repr

/-- The spec's default of every parameter (00_scope.md R7) on an instance of the given width. -/
def Params.standard (bw : BusWidth) : Params :=
  { busWidth := bw, tPulseMs := 2, lineFallible := false, dataAtomic := true,
    rsReset := false, enReset := false, dbReset := none }

/-- FREE VALUE: the level of a line whose write failed (60_exceptions.md R123, 93 U5, 92 D15), at the n-th draw. -/
opaque Config.freeLevel : Nat → Level

/-- FREE VALUE: which of several candidates is taken, at the n-th draw, as an index modulo their number: the
data line written next when `DATA_ATOMIC = false` (93 U1), the failed data line that is reported (93 U5). -/
opaque Config.freePick : Nat → Nat

/-- FREE VALUE: the data-line levels after a reset step where `DB_RESET` is "no value" (93 U6), at the n-th draw.
The 4-bit variant takes the low nibble. -/
opaque Config.freeData : Nat → Byte

end Sys2Proof
end

