-- ==== Sys2Proof/Syntax.lean ====
section
/-! DEFINITION. The instructions: the four named forms of the one operation `transmit(byte, is_data)`
(30_encoding.md R59, 40_shared_transmit.md R70), one constructor per row of spec/opcode_table.json. -/

namespace Sys2Proof

/-- The transmit requests; the operand is the byte, any of 256 values. -/
inductive Instr where
  /-- Write command byte, 8-bit variant (41_eightbit.md R93). -/
  | wrc8 (b : Byte)
  /-- Write data byte, 8-bit variant (41_eightbit.md R94). -/
  | wrd8 (b : Byte)
  /-- Write command byte, 4-bit variant (42_fourbit.md R105). -/
  | wrc4 (b : Byte)
  /-- Write data byte, 4-bit variant (42_fourbit.md R106). -/
  | wrd4 (b : Byte)
  deriving DecidableEq, Repr

/-- The operand `byte` (30_encoding.md R56, field `B`). -/
def Instr.byte : Instr → Byte
  | .wrc8 b | .wrd8 b | .wrc4 b | .wrd4 b => b

/-- The operand `is_data` (30_encoding.md R56, field `F`): true for data, false for a command. -/
def Instr.isData : Instr → Bool
  | .wrc8 _ | .wrc4 _ => false
  | .wrd8 _ | .wrd4 _ => true

/-- The variant an instruction belongs to (the key `config` of spec/opcode_table.json). -/
def Instr.busWidth : Instr → BusWidth
  | .wrc8 _ | .wrd8 _ => .eight
  | .wrc4 _ | .wrd4 _ => .four

/-- The mnemonic (30_encoding.md R59). -/
def Instr.mnemonic : Instr → String
  | .wrc8 _ => "WRC8"
  | .wrd8 _ => "WRD8"
  | .wrc4 _ => "WRC4"
  | .wrd4 _ => "WRD4"

/-- A program is a finite list of requests, presented one at a time in order (30_encoding.md R64). -/
abbrev Program := List Instr

end Sys2Proof
end

