-- ==== Sys2Proof/WellFormed.lean ====
section
/-! DEFINITION. Which instructions an instance can be asked for, and which lists are programs. Every byte is a legal
operand (30_encoding.md R62), so the only check is the variant. -/

namespace Sys2Proof

/-- An instance decodes only the two instructions of its own variant (30_encoding.md R59). -/
def Instr.wellFormed (bw : BusWidth) (i : Instr) : Bool := i.busWidth == bw

/-- A program's lines all have the same variant suffix, that of the instance (30_encoding.md R64). -/
def Program.wellFormed (bw : BusWidth) (p : Program) : Bool := p.all (Instr.wellFormed bw)

end Sys2Proof
end

