-- ==== Sys2Proof/Decode.lean ====
section
/-! DEFINITION. The request format `REQ9`, its decoder and its encoder (30_encoding.md R56, R59, R62). The variant is
no bit of the word: the decoder is given `BUS_WIDTH`. -/

namespace Sys2Proof

/-- Why a number is no request. -/
inductive DecodeReject where
  /-- The number does not fit in the nine bits of `REQ9`; such a request cannot be presented at all
  (30_encoding.md R62). -/
  | notReq9
  deriving DecidableEq, Repr

/-- Field `F` of a request word, bit 8 (30_encoding.md R56). -/
def reqFlag (w : Req9) : Bool := w.getLsbD 8

/-- Field `B` of a request word, bits 7:0 (30_encoding.md R56). -/
def reqByte (w : Req9) : Byte := w.extractLsb' 0 8

/-- The request word of a flag and a byte: `F` in bit 8, `B` in bits 7:0 (30_encoding.md R56). -/
def reqWord (f : Bool) (b : Byte) : Req9 := BitVec.ofBool f ++ b

/-- The decoder of 30_encoding.md R59: `WRC<BUS_WIDTH>` if bit 8 is 0, `WRD<BUS_WIDTH>` if it is 1, operand bits 7:0.
Total: no 9-bit word is illegal or reserved (R62). -/
def decode (bw : BusWidth) (w : Req9) : Instr :=
  match bw, reqFlag w with
  | .eight, false => .wrc8 (reqByte w)
  | .eight, true => .wrd8 (reqByte w)
  | .four, false => .wrc4 (reqByte w)
  | .four, true => .wrd4 (reqByte w)

/-- The decoder on any number: one that is no `REQ9` word is rejected by name (30_encoding.md R62). -/
def decodeNat (bw : BusWidth) (w : Nat) : Except DecodeReject Instr :=
  if w < 2 ^ 9 then .ok (decode bw (BitVec.ofNat 9 w)) else .error .notReq9

/-- The request word of an instruction (30_encoding.md R59, R64). -/
def encode (i : Instr) : Req9 := reqWord i.isData i.byte

/-- What the decoder reads from a table word `w` of `nbits` bits. The rows of the two variants have the same words
(30_encoding.md R59); this decoder is that of the variant `State.reset` is built with, the 8-bit one
(notes/assumptions/2.md). -/
def decodeTableWord (nbits w : Nat) : Option Instr :=
  match decodeNat .eight (w % 2 ^ nbits) with
  | .ok i => some i
  | .error _ => none

end Sys2Proof
end

