-- ==== Sys2Proof/Machine/State.lean ====
section
/-! DEFINITION. The state of one bus controller: everything 10_state.md gives the block, its construction parameters,
and the inputs the outside world will apply. Plain data. -/

namespace Sys2Proof.Machine

/-- The name of an output line (10_state.md R13, R14). `d k` exists in the 8-bit variant only, `n k` in the 4-bit
variant only. -/
inductive Line where
  | rs
  | en
  | d (k : Fin 8)
  | n (k : Fin 4)
  deriving DecidableEq, Repr

/-- A value of all the data lines of a variant at once: the bank of data line registers, the argument of
`DB <- v` and of the event `WD(v)`. `.d v` belongs to the 8-bit variant (bit `k` is `Dk`), `.n v` to the 4-bit
variant (bit `k` is `Nk`). Neither variant has the other's registers (10_state.md R13, R14). -/
inductive DataWord where
  | d (v : Byte)
  | n (v : Nibble)
  deriving DecidableEq, Repr

/-- The output line registers of an instance (10_state.md R13 to R15). The constructor of `data` says which bank of
data line registers is built. -/
structure Lines where
  rs : Level
  en : Level
  data : DataWord
  deriving DecidableEq, Repr

/-- The values of `PH` (10_state.md R22), one constructor per phase per variant (30_encoding.md R67). `idle`, `rsSet`,
`rsClr` and `faulted` belong to both variants, `drive` to `enLo` to the 8-bit variant, `driveHi` to `enLo2` to the
4-bit variant. `faulted l` is the fault mark with `FAULT_LINE = l` (10_state.md R25). -/
inductive Phase where
  | idle
  | rsSet
  | drive
  | enHi
  | wait
  | enLo
  | driveHi
  | enHi1
  | wait1
  | enLo1
  | driveLo
  | enHi2
  | wait2
  | enLo2
  | rsClr
  | faulted (l : Line)
  deriving DecidableEq, Repr

/-- The values of `DLY_PENDING` (10_state.md R30). -/
inductive Delay where
  /-- No delay is outstanding. -/
  | none
  /-- A delay of `n` milliseconds has been issued and not answered. -/
  | req (n : Nat)
  /-- The delay was answered, and the sequencer has not consumed the answer. -/
  | ack
  deriving DecidableEq, Repr

/-- The output events a trace is made of (00_scope.md R9, 30_encoding.md R66). -/
inductive Event where
  /-- A write of a level to one line register. -/
  | w (l : Line) (v : Level)
  /-- A parallel write of all data line registers. -/
  | wd (v : DataWord)
  /-- One blocking delay of at least `n` milliseconds. -/
  | dly (n : Nat)
  deriving DecidableEq, Repr

/-- The inputs of the block during one step. -/
structure Inputs where
  /-- The reset input is asserted (70_reset_and_hazards.md R143). DESIGN CHOICE: the spec leaves its polarity, synchrony
  and minimum width open; here `true` is "asserted", and one step of it resets (notes/assumptions/23.md). -/
  rst : Bool
  /-- `req_valid` (40_shared_transmit.md R88). -/
  reqValid : Bool
  /-- `req_word` (40_shared_transmit.md R88). -/
  reqWord : Req9
  /-- `some m`: the delay source answers in this step, `m` milliseconds after the issue (40_shared_transmit.md R74). -/
  answer : Option Nat
  /-- The lines whose write, if one is made in this step, fails; looked at only with `LINE_FALLIBLE = true`
  (10_state.md R31, 40_shared_transmit.md R73). -/
  fails : List Line
  deriving DecidableEq, Repr

/-- The state. `params` are constants of the instance (10_state.md R31). `trace` lists the events since the last
reset (00_scope.md R9). `world` holds the inputs of the steps to come, first entry first; `driven` and `draws` are
the model's own bookkeeping (notes/assumptions/6.md, 9.md, 10.md). -/
structure State where
  /-- The construction parameters (00_scope.md R7); no step changes them. -/
  params : Params
  /-- The output line registers (10_state.md R13 to R15). -/
  lines : Lines
  /-- `BYTE` (10_state.md R20). -/
  byte : Byte
  /-- `ISDATA` (10_state.md R20). -/
  isData : Bool
  /-- `PH` (10_state.md R22), with `FAULT_LINE` where it is `faulted` (R25). -/
  ph : Phase
  /-- `DLY_PENDING` (10_state.md R30). -/
  dly : Delay
  /-- `done`: the last step moved `PH` from `RSCLR` to `IDLE` (10_state.md R28). -/
  done : Bool
  /-- With `DATA_ATOMIC = false`: bit `k` says that the current `DRIVE` phase has written data line `k`. -/
  driven : BitVec 8
  /-- How many times a free value has been drawn. -/
  draws : Nat
  /-- The events since the last reset, oldest first. -/
  trace : List Event
  /-- The inputs of the steps to come. -/
  world : List Inputs
  deriving DecidableEq, Repr

/-- The one fault class (60_exceptions.md R120, R122). -/
inductive Fault where
  /-- A write to line `l` did not succeed and the block is dead: raised by a step of a faulted instance to which no
  further input comes, so that no reset can (`State.dead`). SAFE: the spec gives no step there (60 R125). -/
  | lineSetFault (l : Line)
  deriving DecidableEq, Repr

/-- Why the model gives no meaning. No request is ever refused (40_shared_transmit.md R91); only configurations are
(60_exceptions.md R137), and calls of a meaning that no step makes. -/
inductive Refusal where
  /-- An arm of `exec` that has no meaning yet. None is left. SAFE. -/
  | notModelled (mnemonic : String)
  /-- Raised by `construct`: `BUS_WIDTH` is not 4 or 8 (60 R137, 92 D22). SAFE. -/
  | noSuchVariant (busWidth : Nat)
  /-- Raised by `construct`: the pins given are not `N_LINES` in number (70 R142, R146). SAFE. -/
  | wrongLineCount (n : Nat)
  /-- Raised by `construct`: a pin is used twice or has another driver (93 U2, 92 D20). SAFE. -/
  | sharedPins
  /-- Raised by a meaning called on an instance of the other variant, which cannot decode that instruction
  (30_encoding.md R59). No step raises it. SAFE. -/
  | otherVariant
  /-- Raised by a meaning called in a phase its variant does not have (10_state.md R22). No step from a state of the
  invariant raises it. SAFE. -/
  | foreignPhase
  deriving DecidableEq, Repr

/-- The machine right after reset (10_state.md R32): the 8-bit variant with the spec's default parameters, `EN` and
`RS` low, idle, no delay pending, no fault. The data lines, `BYTE` and `ISDATA` have no value in the spec; the values
here are the model's (notes/assumptions/2.md, 4.md, 5.md). -/
def State.reset : State :=
  { params := Params.standard .eight
    lines := { rs := false, en := false, data := .d 0 }
    byte := 0
    isData := false
    ph := .idle
    dly := .none
    done := false
    driven := 0
    draws := 0
    trace := []
    world := [] }

end Sys2Proof.Machine
end

