-- ==== Sys2Proof/Machine/Flags.lean ====
section
/-! DEFINITION. There are no flags or condition codes (10_state.md R27). What a requester can read are the status
outputs, computed here from `PH` (10_state.md R24, R28, 40_shared_transmit.md R88); `done` is `State.done`. -/

namespace Sys2Proof.Machine

/-- `busy`: `PH` is neither `IDLE` nor `FAULTED` (10_state.md R24). -/
def State.busy (s : State) : Bool :=
  match s.ph with
  | .idle | .faulted _ => false
  | _ => true

/-- `req_ready = (PH = IDLE)` (40_shared_transmit.md R88). -/
def State.reqReady (s : State) : Bool :=
  match s.ph with
  | .idle => true
  | _ => false

/-- `FAULT_LINE`, absent unless `PH = FAULTED` (10_state.md R25). -/
def State.faultLine (s : State) : Option Line :=
  match s.ph with
  | .faulted l => some l
  | _ => none

/-- `fault`: 1 exactly when `PH = FAULTED` (10_state.md R28). -/
def State.faultOut (s : State) : Bool := s.faultLine.isSome

end Sys2Proof.Machine
end

