-- ==== Sys2Proof/Machine/Operands.lean ====
section
/-! DEFINITION. The operand forms: selection of bits and nibbles (30_encoding.md R58, R60, R61, 42_fourbit.md R107),
the values of the data lines (`TXN` of 40_shared_transmit.md R76), and reading and writing a bank of line registers. -/

namespace Sys2Proof.Machine

/-- `b[7:4]` (30_encoding.md R58). -/
def upperNibble (b : Byte) : Nibble := b.extractLsb' 4 4

/-- `b[3:0]` (30_encoding.md R58). -/
def lowerNibble (b : Byte) : Nibble := b.extractLsb' 0 4

/-- `TXN(b)`: the data-line values of the transactions of a byte, in order (40_shared_transmit.md R76). -/
def txn : BusWidth → Byte → List DataWord
  | .eight, b => [.d b]
  | .four, b => [.n (upperNibble b), .n (lowerNibble b)]

/-- The data-line value an instance takes from a byte where `DB_RESET` is given or drawn as one: the 4-bit variant
takes the low nibble (notes/assumptions/4.md). -/
def dataOfByte : BusWidth → Byte → DataWord
  | .eight, b => .d b
  | .four, b => .n (lowerNibble b)

/-- The variant a data-line value belongs to. -/
def DataWord.variant : DataWord → BusWidth
  | .d _ => .eight
  | .n _ => .four

/-- Bit `k` of a data-line value: the level of `Dk` or `Nk` (30_encoding.md R60, R61). -/
def DataWord.bit : DataWord → Nat → Level
  | .d v, k => v.getLsbD k
  | .n v, k => v.getLsbD k

/-- The data line that carries bit `k` of a data-line value (30_encoding.md R60, R61). -/
def DataWord.line : DataWord → Nat → Line
  | .d _, k => .d (Fin.ofNat 8 k)
  | .n _, k => .n (Fin.ofNat 4 k)

/-- The data lines a data-line value is written to, first to last. -/
def DataWord.lines (v : DataWord) : List Line := (List.range v.variant.nData).map v.line

/-- A value with bit `k` set to a level. -/
def setBit {n : Nat} (x : BitVec n) (k : Nat) (v : Level) : BitVec n :=
  if v then x ||| BitVec.twoPow n k else x &&& ~~~BitVec.twoPow n k

/-- A bank with one of its lines set; a line the bank does not have is no register (10_state.md R14). -/
def DataWord.setLine : DataWord → Line → Level → DataWord
  | .d x, .d k, v => .d (setBit x k v)
  | .n x, .n k, v => .n (setBit x k v)
  | w, _, _ => w

/-- `x[l]`, for observations only (00_scope.md section 5.2): `none` where the variant has no such register. -/
def Lines.get (ls : Lines) : Line → Option Level
  | .rs => some ls.rs
  | .en => some ls.en
  | .d k => match ls.data with
    | .d x => some (x.getLsbD k)
    | .n _ => none
  | .n k => match ls.data with
    | .d _ => none
    | .n x => some (x.getLsbD k)

/-- `x[l] <- v` on the registers (00_scope.md section 5.2). -/
def Lines.set (ls : Lines) : Line → Level → Lines
  | .rs, v => { ls with rs := v }
  | .en, v => { ls with en := v }
  | .d k, v => { ls with data := DataWord.setLine ls.data (.d k) v }
  | .n k, v => { ls with data := DataWord.setLine ls.data (.n k) v }

/-- `DB <- v` on the registers: all data lines at once (00_scope.md section 5.2). -/
def Lines.setData (ls : Lines) (v : DataWord) : Lines := { ls with data := v }

end Sys2Proof.Machine
end

