-- ==== Sys2Proof/Machine/Ops.lean ====
section
/-! DEFINITION. The sequencer's primitives (40_shared_transmit.md sections 2 to 4): reading the inputs, writing a line,
driving the data lines, the delay handshake, acceptance, the one fault and the way out of it (reset), and fetching
the instruction a step works on. -/

namespace Sys2Proof.Machine

/-! ### Inputs -/

/-- Inputs that ask for nothing. -/
def Inputs.quiet : Inputs :=
  { rst := false, reqValid := false, reqWord := 0, answer := none, fails := [] }

/-- The inputs during the next step: the first entry of `world`, quiet past its end (notes/assumptions/6.md). -/
def State.inp (s : State) : Inputs := s.world.headD Inputs.quiet

/-- The step is over: its inputs are gone. -/
def State.advance (s : State) : State := { s with world := s.world.tail }

/-- An outcome with its inputs consumed. -/
def advanceOutcome : Host.Outcome State Fault Refusal → Host.Outcome State Fault Refusal
  | .next s => .next s.advance
  | .fault r => .fault r
  | .refused r => .refused r

/-! ### Phase moves -/

/-- `PH <- p`, with no other effect; `done` is marked by the return alone (10_state.md R28). -/
def State.goto (p : Phase) (s : State) : State := { s with ph := p, done := false }

/-- No step of the block is enabled: nothing changes (10_state.md R28 for `done`). -/
def State.hold (s : State) : State := { s with done := false }

/-! ### The fault, and reset, the only way out of it -/

/-- The write of line `l` fails if it is made in this step (40_shared_transmit.md R73; never with the default
`LINE_FALLIBLE = false`, 60_exceptions.md R121). -/
def State.writeFails (s : State) (l : Line) : Bool := s.params.lineFallible && s.inp.fails.contains l

/-- `raise LineSetFault(l)`: fault entry (60_exceptions.md R123). `PH <- FAULTED`, `FAULT_LINE <- l`, the level of `l`
is any value, every other line keeps its level, no event is appended, `done` is not marked. -/
def State.raiseLineSetFault (l : Line) (s : State) : State :=
  { s with
    ph := .faulted l
    lines := s.lines.set l (Config.freeLevel s.draws)
    draws := s.draws + 1
    driven := 0
    done := false }

/-- In `FAULTED` no step is enabled and no request is accepted; only reset changes it (60_exceptions.md R125). Where
no further input comes, no reset can: the machine stops with the fault (notes/assumptions/8.md). -/
def State.dead (l : Line) (s : State) : Host.Outcome State Fault Refusal :=
  match s.world with
  | [] => .fault (.lineSetFault l)
  | _ :: _ => .next s.hold

/-- The state an instance is constructed in: every piece of state at the value of 10_state.md R32. Data lines,
`BYTE` and `ISDATA` as in `State.reset` where the spec gives no value (notes/assumptions/4.md, 5.md). -/
def State.resetWith (p : Params) : State :=
  { params := p
    lines := { rs := p.rsReset, en := p.enReset, data := dataOfByte p.busWidth (p.dbReset.getD 0) }
    byte := 0
    isData := false
    ph := .idle
    dly := .none
    done := false
    driven := 0
    draws := 0
    trace := []
    world := [] }

/-- The reset step (70_reset_and_hazards.md R143): every piece of state to the value of 10_state.md R32, a fresh
trace. The data lines take `DB_RESET`, and any value where it is "no value" (93 U6). -/
def State.applyReset (s : State) : State :=
  { s with
    lines :=
      { rs := s.params.rsReset
        en := s.params.enReset
        data := dataOfByte s.params.busWidth (s.params.dbReset.getD (Config.freeData s.draws)) }
    byte := 0
    isData := false
    ph := .idle
    dly := .none
    done := false
    driven := 0
    draws := s.draws + 1
    trace := [] }

/-- Construction (70_reset_and_hazards.md R142): the instance takes its `N_LINES` pins and is reset. Refused: a width
that is no variant (92 D22), a wrong number of pins (70 R146), a pin that is used twice or that another driver has
(`taken`; 93 U2, 92 D20). -/
def construct (busWidth : Nat) (pins taken : List Nat) (p : Params) : Host.Outcome State Fault Refusal :=
  match BusWidth.ofNat? busWidth with
  | none => .refused (.noSuchVariant busWidth)
  | some bw =>
    if pins.length ≠ bw.nLines then .refused (.wrongLineCount pins.length)
    else if pins.Nodup ∧ (∀ x ∈ pins, x ∉ taken) then .next (State.resetWith { p with busWidth := bw })
    else .refused .sharedPins

/-! ### Line writes -/

/-- `x[l] <- v` and then `PH <- nxt` (40_shared_transmit.md R73): the register takes the level and the event is
appended; or the write fails. -/
def State.writeLine (l : Line) (v : Level) (nxt : Phase) (s : State) : State :=
  if s.writeFails l then s.raiseLineSetFault l
  else { s with lines := s.lines.set l v, trace := s.trace ++ [.w l v], ph := nxt, done := false }

/-- One of the elements of a list that is `a :: l`, any one: a free value picks it. -/
def pickOne {α : Type} (draws : Nat) (a : α) (l : List α) : α :=
  (a :: l).getD (Config.freePick draws % (l.length + 1)) a

/-- `DB <- v` in one step (40_shared_transmit.md R73, `DATA_ATOMIC = true`): all data lines load at once. It faults if
any one of the writes fails; which failed line is reported is not specified (60_exceptions.md R122). -/
def State.driveAll (v : DataWord) (nxt : Phase) (s : State) : State :=
  match v.lines.filter s.writeFails with
  | [] => { s with lines := s.lines.setData v, trace := s.trace ++ [.wd v], ph := nxt, done := false }
  | l :: ls => s.raiseLineSetFault (pickOne s.draws l ls)

/-- The data lines of `v`, by bit number, that this `DRIVE` phase has not written yet. -/
def State.undriven (v : DataWord) (s : State) : List Nat :=
  (List.range v.variant.nData).filter fun k => !s.driven.getLsbD k

/-- One single-line write of `DB <- v` with `DATA_ATOMIC = false` (41_eightbit.md R98, 42_fourbit.md R115): any one of
the data lines not written yet in this phase is written; after the last, `PH <- nxt`. -/
def State.driveOne (v : DataWord) (nxt : Phase) (s : State) : State :=
  match s.undriven v with
  | [] => { s with ph := nxt, driven := 0, done := false }
  | k :: ks =>
    let j := pickOne s.draws k ks
    if s.writeFails (v.line j) then s.raiseLineSetFault (v.line j)
    else
      { s with
        lines := s.lines.set (v.line j) (v.bit j)
        trace := s.trace ++ [.w (v.line j) (v.bit j)]
        draws := s.draws + 1
        ph := if ks.isEmpty then nxt else s.ph
        driven := if ks.isEmpty then 0 else setBit s.driven j true
        done := false }

/-- `DB <- v` (00_scope.md section 5.2): parallel, or line by line. -/
def State.drive (v : DataWord) (nxt : Phase) (s : State) : State :=
  if s.params.dataAtomic then s.driveAll v nxt else s.driveOne v nxt

/-! ### The delay handshake (40_shared_transmit.md R74) -/

/-- `issue`: ask for `T_PULSE_MS` milliseconds. -/
def State.issueDelay (s : State) : State :=
  { s with dly := .req s.params.tPulseMs, trace := s.trace ++ [.dly s.params.tPulseMs], done := false }

/-- `answer`, the delay source's step: enabled when at least `n` milliseconds have passed since the issue. Otherwise
the sequencer is held; an early answer is no move (60_exceptions.md R133). -/
def State.answerDelay (n : Nat) (s : State) : State :=
  match s.inp.answer with
  | some m => if n ≤ m then { s with dly := .ack, done := false } else s.hold
  | none => s.hold

/-- `consume`: leave the `WAIT` phase. -/
def State.consumeDelay (nxt : Phase) (s : State) : State :=
  { s with dly := .none, ph := nxt, done := false }

/-- A step in a `WAIT` phase. -/
def State.waitDelay (nxt : Phase) (s : State) : State :=
  match s.dly with
  | .none => s.issueDelay
  | .req n => s.answerDelay n
  | .ack => s.consumeDelay nxt

/-! ### The frame of a transmit (40_shared_transmit.md R76, R88) -/

/-- Acceptance: the latches take the operands; no line is written and no event appended (R88). -/
def State.accept (f : Bool) (b : Byte) (s : State) : State :=
  { s with byte := b, isData := f, ph := .rsSet, done := false }

/-- `RSSET`: if `is_data` then `x[RS] <- 1`; otherwise no write at all (R77). -/
def State.setRs (f : Bool) (nxt : Phase) (s : State) : State :=
  if f then s.writeLine .rs true nxt else s.goto nxt

/-- The return marks `done`, unless its line write failed (10_state.md R28, 60_exceptions.md R123). -/
def State.markDone (s : State) : State :=
  match s.ph with
  | .idle => { s with done := true }
  | _ => s

/-- `RSCLR`: if `is_data` then `x[RS] <- 0`; otherwise no write at all (R77). Then the return. -/
def State.clearRs (f : Bool) (s : State) : State :=
  (if f then s.writeLine .rs false .idle else s.goto .idle).markDone

/-! ### Fetch -/

/-- The request word a step works on: the one presented, in `IDLE` (acceptance needs `req_valid`, 40_shared_transmit.md
R88); the latched one while a transmit is in progress (10_state.md R20, 20_memory.md R50); none in `FAULTED`. -/
def State.fetch (s : State) : Option Req9 :=
  match s.ph with
  | .idle => if s.inp.reqValid then some s.inp.reqWord else none
  | .faulted _ => none
  | _ => some (Sys2Proof.reqWord s.isData s.byte)

/-- A step with nothing to work on: idle without a request (60_exceptions.md R137), or faulted (R125). -/
def State.rest (s : State) : Host.Outcome State Fault Refusal :=
  match s.ph with
  | .faulted l => s.dead l
  | _ => .next s.hold

/-- `req_valid` and `req_word` present the number `n`, a word of `REQ9`, in the next step, with the block idle and
`rst` not asserted; a number that is no `REQ9` word cannot be presented (30_encoding.md R62). -/
def State.present (n : Nat) (s : State) : State :=
  { s with
    ph := .idle
    world :=
      { s.inp with rst := false, reqValid := decide (n < 2 ^ 9), reqWord := BitVec.ofNat 9 n } :: s.world.tail }

end Sys2Proof.Machine
end

