-- ==== Sys2Proof/Machine/EightBit.lean ====
section
/-! DEFINITION. The 8-bit variant (41_eightbit.md): `WRC8` and `WRD8`, one step of the sequencer of R95 each. -/

namespace Sys2Proof.Machine

/-- The 8-bit sequencer on the transmit of `(b, f)`: one row of the table of 41_eightbit.md R95 per phase; `WAIT` is
the three steps of 40_shared_transmit.md R74. -/
def seq8 (f : Bool) (b : Byte) (s : State) : Host.Outcome State Fault Refusal :=
  if s.params.busWidth = .eight then
    match s.ph with
    | .idle => .next (s.accept f b)
    | .rsSet => .next (s.setRs f .drive)
    | .drive => .next (s.drive (.d b) .enHi)
    | .enHi => .next (s.writeLine .en true .wait)
    | .wait => .next (s.waitDelay .enLo)
    | .enLo => .next (s.writeLine .en false .rsClr)
    | .rsClr => .next (s.clearRs f)
    | .faulted l => s.dead l
    | .driveHi | .enHi1 | .wait1 | .enLo1 | .driveLo | .enHi2 | .wait2 | .enLo2 => .refused .foreignPhase
  else .refused .otherVariant

/-- `WRC8 b`: write command byte, 8-bit variant (41_eightbit.md R93). `RS` is never written. -/
def execWrc8 (b : Byte) (s : State) : Host.Outcome State Fault Refusal := seq8 false b s

/-- `WRD8 b`: write data byte, 8-bit variant (41_eightbit.md R94). `RS` is set first and cleared last. -/
def execWrd8 (b : Byte) (s : State) : Host.Outcome State Fault Refusal := seq8 true b s

end Sys2Proof.Machine
end

