-- ==== Sys2Proof/Machine/FourBit.lean ====
section
/-! DEFINITION. The 4-bit variant (42_fourbit.md): `WRC4` and `WRD4`, one step of the sequencer of R108 each. The
nibble multiplexer (R107) is the choice of nibble in the two `DRIVE` phases. -/

namespace Sys2Proof.Machine

/-- The 4-bit sequencer on the transmit of `(b, f)`: one row of the table of 42_fourbit.md R108 per phase; each `WAIT`
is the three steps of 40_shared_transmit.md R74. -/
def seq4 (f : Bool) (b : Byte) (s : State) : Host.Outcome State Fault Refusal :=
  if s.params.busWidth = .four then
    match s.ph with
    | .idle => .next (s.accept f b)
    | .rsSet => .next (s.setRs f .driveHi)
    | .driveHi => .next (s.drive (.n (upperNibble b)) .enHi1)
    | .enHi1 => .next (s.writeLine .en true .wait1)
    | .wait1 => .next (s.waitDelay .enLo1)
    | .enLo1 => .next (s.writeLine .en false .driveLo)
    | .driveLo => .next (s.drive (.n (lowerNibble b)) .enHi2)
    | .enHi2 => .next (s.writeLine .en true .wait2)
    | .wait2 => .next (s.waitDelay .enLo2)
    | .enLo2 => .next (s.writeLine .en false .rsClr)
    | .rsClr => .next (s.clearRs f)
    | .faulted l => s.dead l
    | .drive | .enHi | .wait | .enLo => .refused .foreignPhase
  else .refused .otherVariant

/-- `WRC4 b`: write command byte, 4-bit variant (42_fourbit.md R105). `RS` is never written. -/
def execWrc4 (b : Byte) (s : State) : Host.Outcome State Fault Refusal := seq4 false b s

/-- `WRD4 b`: write data byte, 4-bit variant (42_fourbit.md R106). `RS` is set first and cleared last. -/
def execWrd4 (b : Byte) (s : State) : Host.Outcome State Fault Refusal := seq4 true b s

end Sys2Proof.Machine
end

