-- ==== Sys2Proof/Machine/Dispatch.lean ====
section
/-! DEFINITION. Dispatch: what one step of the sequencer does while it works on an instruction. -/

namespace Sys2Proof.Machine

def exec (i : Instr) (s : State) : Host.Outcome State Fault Refusal :=
  match i with
  | .wrc8 b => Sys2Proof.Machine.execWrc8 b s
  | .wrd8 b => Sys2Proof.Machine.execWrd8 b s
  | .wrc4 b => Sys2Proof.Machine.execWrc4 b s
  | .wrd4 b => Sys2Proof.Machine.execWrd4 b s

end Sys2Proof.Machine
end

