-- ==== Sys2Proof/Machine/Step.lean ====
section
/-! DEFINITION. One step of the machine (40_shared_transmit.md R91): reset, which wins over every other step
(70_reset_and_hazards.md R143); otherwise the step of the instruction in `fetch`; otherwise nothing is enabled. -/

namespace Sys2Proof.Machine

/-- One step of the machine: it reads the inputs of this step and drops them. -/
def step (s : State) : Host.Outcome State Fault Refusal :=
  if s.inp.rst then .next s.applyReset.advance
  else
    match s.fetch with
    | some w => advanceOutcome (exec (decode s.params.busWidth w) s)
    | none => advanceOutcome s.rest

/-- The state in which the very next step accepts the table word `w` of `nbits` bits: the requester presents it
(40_shared_transmit.md R88). It stands for the requester's presenting a program's next line
(notes/assumptions/17.md). -/
def State.withFetchWord (s : State) (nbits w : Nat) : State := s.present (w % 2 ^ nbits)

end Sys2Proof.Machine
end

