-- ==== Sys2Proof/Machine/Observe.lean ====
section
/-! DEFINITION. What an observer of the lines reads off a trace: the line levels it leads to, the waveform and the
transitions (00_scope.md R10), the pulse records and the abstract writes to the display (20_memory.md R45, R46), and
the big-step traces of the two variants (41_eightbit.md R96, 42_fourbit.md R109). No step uses any of these. -/

namespace Sys2Proof.Machine

/-- The line registers after one event. A delay changes no line (40_shared_transmit.md R74). -/
def Lines.apply (ls : Lines) : Event → Lines
  | .w l v => ls.set l v
  | .wd v => ls.setData v
  | .dly _ => ls

/-- The line registers after a trace. -/
def replay (ls : Lines) (es : List Event) : Lines := es.foldl Lines.apply ls

/-- The waveform: the line registers after each event (00_scope.md R10). -/
def waveform (ls : Lines) : List Event → List Lines
  | [] => []
  | e :: es => ls.apply e :: waveform (ls.apply e) es

/-- The lines of an instance. -/
def Lines.names (ls : Lines) : List Line := .rs :: .en :: ls.data.lines

/-- The transitions of one event: the lines that change, with their new level (00_scope.md R10). -/
def changed (a b : Lines) : List (Line × Level) :=
  a.names.filterMap fun l =>
    match a.get l, b.get l with
    | some x, some y => if x = y then none else some (l, y)
    | _, _ => none

/-- The transitions of a trace, in order; the order within one parallel data write means nothing. -/
def transitions (ls : Lines) : List Event → List (Line × Level)
  | [] => []
  | e :: es => changed ls (ls.apply e) ++ transitions (ls.apply e) es

/-- The pulse records of a trace from a start state: at each fall of `EN`, the levels of `RS` and of the data lines
(20_memory.md R45). -/
def pulseRecords (ls : Lines) : List Event → List (Level × DataWord)
  | [] => []
  | e :: es =>
    if e = .w .en false ∧ ls.en = true then (ls.rs, ls.data) :: pulseRecords (ls.apply e) es
    else pulseRecords (ls.apply e) es

/-- The abstract writes `MemWrite(a, 1, v)` of a list of pulse records, as pairs of the address (`true` for the
display's data register, `false` for its command register, 20_memory.md R35) and the byte: one record a byte in the
8-bit variant, two records a byte, upper nibble first, in the 4-bit variant (20_memory.md R45). -/
def memWrites : List (Level × DataWord) → List (Level × Byte)
  | (a, .d v) :: rs => (a, v) :: memWrites rs
  | (a, .n h) :: (_, .n l) :: rs => (a, h ++ l) :: memWrites rs
  | _ => []

/-- The number of events of a trace that are `e`. -/
def countOf (e : Event) (es : List Event) : Nat := es.count e

/-- How many calls on single lines an event is in the source's software (40_shared_transmit.md R90). -/
def setCalls : Event → Nat
  | .w _ _ => 1
  | .wd v => v.variant.nData
  | .dly _ => 0

/-- The event is a parallel data write. -/
def Event.isWd : Event → Bool
  | .wd _ => true
  | .w _ _ => false
  | .dly _ => false

/-- The durations asked for in a trace; their sum is the least time it takes (70_reset_and_hazards.md R159, R160). -/
def delaysOf : List Event → List Nat
  | [] => []
  | .dly n :: es => n :: delaysOf es
  | .w _ _ :: es => delaysOf es
  | .wd _ :: es => delaysOf es

/-- The trace of `PulseEN()` (40_shared_transmit.md R75). -/
def pulseTrace (t : Nat) : List Event := [.w .en true, .dly t, .w .en false]

/-- The trace of one transaction: drive, then pulse (40_shared_transmit.md R76). -/
def txnTrace (t : Nat) (v : DataWord) : List Event := .wd v :: pulseTrace t

/-- The write of `RS` that only a data transmit makes (40_shared_transmit.md R77). -/
def rsTrace (f : Bool) (v : Level) : List Event := if f then [.w .rs v] else []

/-- `Trace8(b, f)` (41_eightbit.md R96). -/
def trace8 (t : Nat) (f : Bool) (b : Byte) : List Event :=
  rsTrace f true ++ txnTrace t (.d b) ++ rsTrace f false

/-- `Trace4(b, f)` (42_fourbit.md R109). -/
def trace4 (t : Nat) (f : Bool) (b : Byte) : List Event :=
  rsTrace f true ++ txnTrace t (.n (upperNibble b)) ++ txnTrace t (.n (lowerNibble b)) ++ rsTrace f false

/-- The trace of a transmit on an instance with these parameters (with `DATA_ATOMIC = true`). -/
def transmitTrace (p : Params) (w : Req9) : List Event :=
  match p.busWidth with
  | .eight => trace8 p.tPulseMs (reqFlag w) (reqByte w)
  | .four => trace4 p.tPulseMs (reqFlag w) (reqByte w)

/-- The data-line value a transmit leaves (10_state.md R18). -/
def lastDriven : BusWidth → Byte → DataWord
  | .eight, b => .d b
  | .four, b => .n (lowerNibble b)

end Sys2Proof.Machine
end

