-- ==== Sys2Proof/Safety.lean ====
section
/-! DEFINITION. The terms claims are stated in: the invariant of an instance (10_state.md R22, R30, R33, R34), the
straight line of the phases (R23), reachability, the end of a run (40_shared_transmit.md R92), and the inputs under
which a transmit is carried out. -/

namespace Sys2Proof.Machine

/-! ### Phases -/

/-- The phases of a variant (10_state.md R22). -/
def Phase.ofVariant (bw : BusWidth) : Phase → Bool
  | .idle | .rsSet | .rsClr | .faulted _ => true
  | .drive | .enHi | .wait | .enLo => bw == .eight
  | .driveHi | .enHi1 | .wait1 | .enLo1 | .driveLo | .enHi2 | .wait2 | .enLo2 => bw == .four

/-- The phase after a phase in the table of 10_state.md R22. -/
def Phase.after (bw : BusWidth) : Phase → Phase
  | .idle => .rsSet
  | .rsSet => match bw with
    | .eight => .drive
    | .four => .driveHi
  | .drive => .enHi
  | .enHi => .wait
  | .wait => .enLo
  | .enLo => .rsClr
  | .driveHi => .enHi1
  | .enHi1 => .wait1
  | .wait1 => .enLo1
  | .enLo1 => .driveLo
  | .driveLo => .enHi2
  | .enHi2 => .wait2
  | .wait2 => .enLo2
  | .enLo2 => .rsClr
  | .rsClr => .idle
  | .faulted l => .faulted l

/-- A `WAIT` phase (10_state.md R23). -/
def Phase.isWait : Phase → Bool
  | .wait | .wait1 | .wait2 => true
  | _ => false

/-- A phase that drives the data lines. -/
def Phase.isDrive : Phase → Bool
  | .drive | .driveHi | .driveLo => true
  | _ => false

/-- A phase that raises `EN`. -/
def Phase.isEnHi : Phase → Bool
  | .enHi | .enHi1 | .enHi2 => true
  | _ => false

/-- A phase that lowers `EN`. -/
def Phase.isEnLo : Phase → Bool
  | .enLo | .enLo1 | .enLo2 => true
  | _ => false

/-- `PH = FAULTED`. -/
def Phase.isFaulted : Phase → Bool
  | .faulted _ => true
  | _ => false

/-- `EN` is high in a phase: in a `WAIT` phase and the `ENLO` phase that follows (10_state.md R34). -/
def Phase.enHigh (p : Phase) : Bool := p.isWait || p.isEnLo

/-- `RS` follows `is_data` in a phase: from the step after `RSSET` to `RSCLR` (90_conflicts.md C4). -/
def Phase.rsHeld : Phase → Bool
  | .idle | .rsSet | .faulted _ => false
  | _ => true

/-- The value the data lines must have in a phase, where the phase says so (20_memory.md R53). -/
def Phase.dataHeld (bw : BusWidth) (b : Byte) : Phase → Option DataWord
  | .enHi | .wait | .enLo => some (.d b)
  | .enHi1 | .wait1 | .enLo1 => some (.n (upperNibble b))
  | .enHi2 | .wait2 | .enLo2 => some (.n (lowerNibble b))
  | .rsClr => some (lastDriven bw b)
  | _ => none

/-- The lines a step of an instruction may write in a phase (10_state.md R17, 40_shared_transmit.md R77). -/
def mayWrite (i : Instr) (p : Phase) (l : Line) : Bool :=
  match l with
  | .rs => i.isData && (p == .rsSet || p == .rsClr)
  | .en => p.isEnHi || p.isEnLo
  | .d _ => i.busWidth == .eight && p.isDrive
  | .n _ => i.busWidth == .four && p.isDrive

/-! ### The invariant of an instance -/

/-- The bank of data line registers is that of the variant (10_state.md R13, R14). -/
def State.bankOk (s : State) : Bool := s.lines.data.variant == s.params.busWidth

/-- The phase belongs to the variant (10_state.md R22). -/
def State.phaseOk (s : State) : Bool := s.ph.ofVariant s.params.busWidth

/-- `EN` is high exactly in the phases of 10_state.md R34; after a fault it may be anything. -/
def State.enOk (s : State) : Bool := s.ph.isFaulted || s.lines.en == s.ph.enHigh

/-- `RS` is low in `IDLE` and `RSSET` (10_state.md R33) and equals `ISDATA` from then to `RSCLR`; after a fault it
may be anything. -/
def State.rsOk (s : State) : Bool := s.ph.isFaulted || s.lines.rs == (s.ph.rsHeld && s.isData)

/-- The data lines hold the value of the transaction from its drive to the next (20_memory.md R53). -/
def State.dataOk (s : State) : Bool :=
  match s.ph.dataHeld s.params.busWidth s.byte with
  | some v => s.lines.data == v
  | none => true

/-- A delay is pending only in a `WAIT` phase, and asks for `T_PULSE_MS` (10_state.md R30). -/
def State.delayOk (s : State) : Bool :=
  match s.dly with
  | .none => true
  | .req n => s.ph.isWait && n == s.params.tPulseMs
  | .ack => s.ph.isWait

/-- `FAULTED` only with fallible lines (10_state.md R25). -/
def State.faultOk (s : State) : Bool := s.params.lineFallible || !s.ph.isFaulted

/-- The mask of written data lines against the value being driven: every line it names holds its bit, some line is
still to be written, and with `DATA_ATOMIC = true` it names none. -/
def State.drivenHold (v : DataWord) (s : State) : Bool :=
  (List.range v.variant.nData).all (fun k => !s.driven.getLsbD k || s.lines.data.bit k == v.bit k)
    && !(s.undriven v).isEmpty && (!s.params.dataAtomic || s.driven == 0)

/-- The mask is used in the `DRIVE` phases only. -/
def State.drivenOk (s : State) : Bool :=
  match s.ph with
  | .drive => s.drivenHold (.d s.byte)
  | .driveHi => s.drivenHold (.n (upperNibble s.byte))
  | .driveLo => s.drivenHold (.n (lowerNibble s.byte))
  | _ => s.driven == 0

/-- The resting levels are low, as the spec decides them (00_scope.md R7, 92 D2). -/
def restsLow (p : Params) : Bool := !p.rsReset && !p.enReset

/-- The invariant of an instance whose reset levels are low. -/
def State.inv (s : State) : Bool :=
  restsLow s.params && s.bankOk && s.phaseOk && s.enOk && s.rsOk && s.dataOk && s.delayOk && s.faultOk && s.drivenOk

/-- The number of pulses begun since reset is even in these phases of the 4-bit variant (20_memory.md R42). -/
def Phase.evenPulses : Phase → Bool
  | .wait1 | .enLo1 | .driveLo | .enHi2 => false
  | _ => true

/-- The pulses of a 4-bit instance since reset come in pairs (20_memory.md R42); a fault may break one. -/
def State.pulsesPaired (s : State) : Bool :=
  s.ph.isFaulted || (s.ph.evenPulses == (countOf (.w .en true) s.trace % 2 == 0))

/-- The delay event of a `WAIT` phase, once it is issued (40_shared_transmit.md R74). -/
def issuedDelay (t : Nat) : Delay → List Event
  | .none => []
  | _ => [.dly t]

/-- The events a transmit in progress has made, with `DATA_ATOMIC = true`: those of the rows of 41_eightbit.md R95 or
42_fourbit.md R108 already performed. -/
def State.soFar (s : State) : List Event :=
  let t := s.params.tPulseMs
  let rs := rsTrace s.isData true
  let hi : DataWord := .n (upperNibble s.byte)
  let lo : DataWord := .n (lowerNibble s.byte)
  match s.ph with
  | .idle | .faulted _ | .rsSet => []
  | .drive | .driveHi => rs
  | .enHi => rs ++ [.wd (.d s.byte)]
  | .wait => rs ++ [.wd (.d s.byte), .w .en true] ++ issuedDelay t s.dly
  | .enLo => rs ++ [.wd (.d s.byte), .w .en true, .dly t]
  | .enHi1 => rs ++ [.wd hi]
  | .wait1 => rs ++ [.wd hi, .w .en true] ++ issuedDelay t s.dly
  | .enLo1 => rs ++ [.wd hi, .w .en true, .dly t]
  | .driveLo => rs ++ txnTrace t hi
  | .enHi2 => rs ++ txnTrace t hi ++ [.wd lo]
  | .wait2 => rs ++ txnTrace t hi ++ [.wd lo, .w .en true] ++ issuedDelay t s.dly
  | .enLo2 => rs ++ txnTrace t hi ++ [.wd lo, .w .en true, .dly t]
  | .rsClr => rs ++ (txn s.params.busWidth s.byte).flatMap (txnTrace t)

/-! ### Runs -/

/-- The states an instance with these parameters can be in, whatever its inputs. -/
def Reachable (p : Params) (s : State) : Prop :=
  ∃ n world, Sys2Proof.core.run n { State.resetWith p with world := world } = .next s

/-- The end of a run (40_shared_transmit.md R92): no request is still to come, `PH = IDLE`, no delay pending. DESIGN
CHOICE: R92 has only lists emptied by acceptance; a request presented only while the block was busy and then withdrawn
does not keep a run from being over (notes/assumptions/24.md). -/
def State.runOver (s : State) : Bool :=
  s.world.all (fun t => !t.reqValid) && s.ph == .idle && s.dly == .none

/-- Held: the sequencer has no enabled step until the delay source answers (60_exceptions.md R137). -/
def State.heldByDelay (s : State) : Bool :=
  s.ph.isWait && match s.dly with
    | .req _ => true
    | _ => false

/-- Reset is not asserted and the delay source does not answer; anything may be presented. -/
def Inputs.noAnswer (t : Inputs) : Bool := !t.rst && t.answer.isNone

/-- The request word `w` is presented and reset is not asserted. -/
def Inputs.presents (w : Req9) (t : Inputs) : Bool := !t.rst && t.reqValid && t.reqWord == w

/-- The delay source answers a delay of `n` milliseconds, not early, and reset is not asserted. -/
def Inputs.answers (n : Nat) (t : Inputs) : Bool :=
  !t.rst && match t.answer with
    | some m => decide (n ≤ m)
    | none => false

/-- The inputs of one transmit that meets no delay: `w` presented once, every delay answered at once. -/
def transmitInputs (p : Params) (w : Req9) : List Inputs :=
  { Inputs.quiet with reqValid := true, reqWord := w } :: List.replicate 4 Inputs.quiet
    ++ pulseInputs ++ rest
where
  /-- The answer to a delay and the three steps after it. -/
  pulseInputs : List Inputs := { Inputs.quiet with answer := some p.tPulseMs } :: List.replicate 3 Inputs.quiet
  /-- The second transaction of the 4-bit variant. -/
  rest : List Inputs :=
    match p.busWidth with
    | .eight => []
    | .four => List.replicate 2 Inputs.quiet ++ pulseInputs

/-- The inputs of a list of transmits, one after the other (40_shared_transmit.md R92). -/
def runInputs (p : Params) (ws : List Req9) : List Inputs := ws.flatMap (transmitInputs p)

/-- The sequencer's steps on one instruction: exec, `n` times, each step with the inputs of its own time. -/
def runInstr : Nat → Instr → State → Host.Outcome State Fault Refusal
  | 0, _, s => .next s
  | n + 1, i, s =>
    match advanceOutcome (exec i s) with
    | .next s' => runInstr n i s'
    | .fault r => .fault r
    | .refused r => .refused r

/-- The requests accepted in `n` steps, in order (40_shared_transmit.md R88). -/
def acceptedIn : Nat → State → List Req9
  | 0, _ => []
  | n + 1, s =>
    (if s.ph = .idle ∧ s.inp.reqValid = true ∧ s.inp.rst = false then [s.inp.reqWord] else []) ++
      match step s with
      | .next s' => acceptedIn n s'
      | .fault _ => []
      | .refused _ => []

/-! ### Rows of the sequencer tables -/

/-- The 8-bit instruction with a flag and a byte. -/
def instr8 (f : Bool) (b : Byte) : Instr := if f then .wrd8 b else .wrc8 b

/-- The 4-bit instruction with a flag and a byte. -/
def instr4 (f : Bool) (b : Byte) : Instr := if f then .wrd4 b else .wrc4 b

/-- A `WAIT` phase of an instruction (40_shared_transmit.md R74): issue, held or answered, consume. -/
def WaitRow (i : Instr) (s : State) (nxt : Phase) : Prop :=
  (s.dly = .none →
    exec i s = .next { s with
      dly := .req s.params.tPulseMs, trace := s.trace ++ [.dly s.params.tPulseMs], done := false }) ∧
  (∀ n, s.dly = .req n →
    (∀ m, s.inp.answer = some m → n ≤ m → exec i s = .next { s with dly := .ack, done := false }) ∧
    (∀ m, s.inp.answer = some m → m < n → exec i s = .next { s with done := false }) ∧
    (s.inp.answer = none → exec i s = .next { s with done := false })) ∧
  (s.dly = .ack → exec i s = .next { s with dly := .none, ph := nxt, done := false })

end Sys2Proof.Machine
end

