-- ==== Sys2Proof/Certificates/Slice0/Obligations.lean ====
section
/-! DEFINITION. The statements for the provers. Each docstring names the rule of spec/ it formalises. -/

open Sys2Proof Sys2Proof.Machine

/-! ### Encoding -/

/-- 30_encoding.md R56, R59: decoding the request word of an instruction on its own variant gives it back, whatever
the byte. -/
def Obligations.DecodeOfEncodeIsTheInstruction : Prop :=
  ∀ i : Instr, decode i.busWidth (encode i) = i

/-- 30_encoding.md R62, R59: the decoder of a variant has an instruction of that variant for every 9-bit word, whose
request word it is, and rejects every number of more than nine bits by name (notes/assumptions/21.md). -/
def Obligations.DecoderIsTotalOnRequestWords : Prop :=
  ∀ (bw : BusWidth) (n : Nat),
    (n < 512 → ∃ i, decodeNat bw n = .ok i ∧ i.wellFormed bw = true ∧ encode i = BitVec.ofNat 9 n) ∧
    (512 ≤ n → decodeNat bw n = .error .notReq9)

/-- The decode vectors of 95_test_vectors.md 2.1. -/
def Obligations.DecodesTheListedRequestWords : Prop :=
  decode .eight 0x000 = .wrc8 0x00 ∧ decode .eight 0x0FF = .wrc8 0xFF ∧ decode .eight 0x100 = .wrd8 0x00 ∧
  decode .eight 0x1FF = .wrd8 0xFF ∧ decode .eight 0x1A5 = .wrd8 0xA5 ∧ decode .four 0x0A5 = .wrc4 0xA5 ∧
  decode .four 0x141 = .wrd4 0x41 ∧ decode .four 0x028 = .wrc4 0x28

/-- 40_shared_transmit.md R87, 30_encoding.md R58: the laws of the nibble selection. -/
def Obligations.NibblesOfAByte : Prop :=
  ∀ b : Byte,
    upperNibble b ++ lowerNibble b = b ∧
    (upperNibble b).toNat = b.toNat / 16 ∧ (lowerNibble b).toNat = b.toNat % 16 ∧
    (∀ k, k < 4 → (upperNibble b).getLsbD k = b.getLsbD (4 + k) ∧ (lowerNibble b).getLsbD k = b.getLsbD k)

/-! ### One step and the instruction it works on -/

/-- In `IDLE`, with a request presented and no reset, the step is that of the decoded request, and its inputs are
consumed (40_shared_transmit.md R88, 30_encoding.md R59). -/
def Obligations.StepRunsThePresentedRequest : Prop :=
  ∀ (s : State) (i : Instr),
    s.inp.rst = false → s.ph = .idle → s.inp.reqValid = true → decode s.params.busWidth s.inp.reqWord = i →
    step s = advanceOutcome (exec i s)

/-- While a transmit is in progress, with no reset, the step is that of the latched request, and its inputs are
consumed (10_state.md R20, 20_memory.md R50). -/
def Obligations.StepRunsTheLatchedRequest : Prop :=
  ∀ (s : State) (i : Instr),
    s.inp.rst = false → s.busy = true → decode s.params.busWidth (reqWord s.isData s.byte) = i →
    step s = advanceOutcome (exec i s)

/-- In `IDLE` without a request and without reset nothing changes but `done`, which is marked for one step only
(95_test_vectors.md 2.7, 70_reset_and_hazards.md R145, 10_state.md R28). That the one step is seen as `done` in the
state after the return is the model's reading (notes/assumptions/11.md). -/
def Obligations.IdleWithoutRequestStaysIdle : Prop :=
  ∀ s : State, s.inp.rst = false → s.ph = .idle → s.inp.reqValid = false →
    step s = .next { s with done := false, world := s.world.tail }

/-- 40_shared_transmit.md R88, 20_memory.md R50: the request inputs have no effect unless `PH = IDLE`. -/
def Obligations.RequestInputsHaveNoEffectUnlessIdle : Prop :=
  ∀ (s : State) (t : Inputs) (rest : List Inputs) (v : Bool) (w : Req9), s.ph ≠ .idle →
    step { s with world := { t with reqValid := v, reqWord := w } :: rest } = step { s with world := t :: rest }

/-! ### The sequencers -/

/-- 41_eightbit.md R95, for `WRC8` and `WRD8`: every row of the table of the 8-bit sequencer, as the next state that
`exec` answers, where the write of the row, if it makes one, does not fail; the `DRIVE` row is that of the parallel
data write. The model's own are the form of an answer, the time at which `done` is up, and that the latches keep their values
after the return (notes/assumptions/7.md, 11.md, 5.md). -/
def Obligations.EightBitSequencerTable : Prop :=
  ∀ (f : Bool) (b : Byte) (s : State),
    s.params.busWidth = .eight →
    (s.ph = .idle →
      exec (instr8 f b) s = .next { s with byte := b, isData := f, ph := .rsSet, done := false }) ∧
    (s.ph = .rsSet → (f = true → s.writeFails .rs = false) →
      exec (instr8 f b) s = .next { s with
        lines := { s.lines with rs := f || s.lines.rs }
        trace := s.trace ++ (if f then [.w .rs true] else []), ph := .drive, done := false }) ∧
    (s.ph = .drive → s.params.dataAtomic = true → (∀ k, s.writeFails (.d k) = false) →
      exec (instr8 f b) s = .next { s with
        lines := { s.lines with data := .d b }
        trace := s.trace ++ [.wd (.d b)], ph := .enHi, done := false }) ∧
    (s.ph = .enHi → s.writeFails .en = false →
      exec (instr8 f b) s = .next { s with
        lines := { s.lines with en := true }, trace := s.trace ++ [.w .en true], ph := .wait, done := false }) ∧
    (s.ph = .wait → WaitRow (instr8 f b) s .enLo) ∧
    (s.ph = .enLo → s.writeFails .en = false →
      exec (instr8 f b) s = .next { s with
        lines := { s.lines with en := false }, trace := s.trace ++ [.w .en false], ph := .rsClr, done := false }) ∧
    (s.ph = .rsClr → (f = true → s.writeFails .rs = false) →
      exec (instr8 f b) s = .next { s with
        lines := { s.lines with rs := !f && s.lines.rs }
        trace := s.trace ++ (if f then [.w .rs false] else []), ph := .idle, done := true })

/-- 42_fourbit.md R108, R107, for `WRC4` and `WRD4`: every row of the table of the 4-bit sequencer, as the next state
that `exec` answers, where the write of the row, if it makes one, does not fail; the two `DRIVE` rows are those of the
parallel data write. The model's own are the form of an answer, the time at which `done` is up, and that the latches keep their values
after the return (notes/assumptions/7.md, 11.md, 5.md). -/
def Obligations.FourBitSequencerTable : Prop :=
  ∀ (f : Bool) (b : Byte) (s : State),
    s.params.busWidth = .four →
    (s.ph = .idle →
      exec (instr4 f b) s = .next { s with byte := b, isData := f, ph := .rsSet, done := false }) ∧
    (s.ph = .rsSet → (f = true → s.writeFails .rs = false) →
      exec (instr4 f b) s = .next { s with
        lines := { s.lines with rs := f || s.lines.rs }
        trace := s.trace ++ (if f then [.w .rs true] else []), ph := .driveHi, done := false }) ∧
    (s.ph = .driveHi → s.params.dataAtomic = true → (∀ k, s.writeFails (.n k) = false) →
      exec (instr4 f b) s = .next { s with
        lines := { s.lines with data := .n (b.extractLsb' 4 4) }
        trace := s.trace ++ [.wd (.n (b.extractLsb' 4 4))], ph := .enHi1, done := false }) ∧
    (s.ph = .enHi1 → s.writeFails .en = false →
      exec (instr4 f b) s = .next { s with
        lines := { s.lines with en := true }, trace := s.trace ++ [.w .en true], ph := .wait1, done := false }) ∧
    (s.ph = .wait1 → WaitRow (instr4 f b) s .enLo1) ∧
    (s.ph = .enLo1 → s.writeFails .en = false →
      exec (instr4 f b) s = .next { s with
        lines := { s.lines with en := false }, trace := s.trace ++ [.w .en false], ph := .driveLo, done := false }) ∧
    (s.ph = .driveLo → s.params.dataAtomic = true → (∀ k, s.writeFails (.n k) = false) →
      exec (instr4 f b) s = .next { s with
        lines := { s.lines with data := .n (b.extractLsb' 0 4) }
        trace := s.trace ++ [.wd (.n (b.extractLsb' 0 4))], ph := .enHi2, done := false }) ∧
    (s.ph = .enHi2 → s.writeFails .en = false →
      exec (instr4 f b) s = .next { s with
        lines := { s.lines with en := true }, trace := s.trace ++ [.w .en true], ph := .wait2, done := false }) ∧
    (s.ph = .wait2 → WaitRow (instr4 f b) s .enLo2) ∧
    (s.ph = .enLo2 → s.writeFails .en = false →
      exec (instr4 f b) s = .next { s with
        lines := { s.lines with en := false }, trace := s.trace ++ [.w .en false], ph := .rsClr, done := false }) ∧
    (s.ph = .rsClr → (f = true → s.writeFails .rs = false) →
      exec (instr4 f b) s = .next { s with
        lines := { s.lines with rs := !f && s.lines.rs }
        trace := s.trace ++ (if f then [.w .rs false] else []), ph := .idle, done := true })

/-- 41_eightbit.md R98 and 42_fourbit.md R115, with `DATA_ATOMIC = false`: a `DRIVE` phase of any of the four
instructions takes one step per data line; in some order every data line of the variant is written exactly once, with
its bit of the value driven; then the phase moves on. Nothing else changes. It holds on infallible lines, and on
fallible ones no data line of which fails in these steps. The mask `driven` is the model's own (notes/assumptions/10.md). -/
def Obligations.LineByLineDriveWritesEveryLineOnce : Prop :=
  ∀ (i : Instr) (s : State) (v : DataWord),
    s.params.busWidth = i.busWidth → s.params.dataAtomic = false →
    (s.params.lineFallible = true → ∀ t ∈ s.world.take i.busWidth.nData, ∀ l ∈ v.lines, l ∉ t.fails) →
    s.lines.data.variant = i.busWidth → s.driven = 0 →
    (s.ph = .drive ∧ v = .d i.byte ∨ s.ph = .driveHi ∧ v = .n (upperNibble i.byte)
      ∨ s.ph = .driveLo ∧ v = .n (lowerNibble i.byte)) → v.variant = i.busWidth →
    ∃ (es : List Event) (draws : Nat),
      es.Perm ((List.range i.busWidth.nData).map fun k => .w (v.line k) (v.bit k)) ∧
      runInstr i.busWidth.nData i s = .next { s with
        lines := { s.lines with data := v }
        trace := s.trace ++ es, ph := s.ph.after i.busWidth, done := false, draws := draws
        world := s.world.drop i.busWidth.nData }

/-! ### Whole transmits -/

/-- 41_eightbit.md R96: from acceptance of `(b, f)` to the return, whatever else is presented meanwhile and however
late the delay source answers, an 8-bit transmit makes exactly `Trace8(b, f)` and ends in the state of the rule. The
model's own in that state are the latches, which keep the request (notes/assumptions/5.md), and `done` (11.md). -/
def Obligations.EightBitTransmitRunsToTheReturn : Prop :=
  ∀ (f : Bool) (b : Byte) (s : State) (hd ans : Inputs) (before after rest : List Inputs),
    s.params.busWidth = .eight → s.params.lineFallible = false → s.params.dataAtomic = true →
    s.ph = .idle → s.lines.en = false → s.lines.rs = false → s.dly = .none →
    s.world = hd :: before ++ ans :: after ++ rest →
    hd.presents (reqWord f b) = true →
    4 ≤ before.length → (∀ t ∈ before, t.noAnswer = true) →
    ans.answers s.params.tPulseMs = true →
    after.length = 3 → (∀ t ∈ after, t.rst = false) →
    core.run (before.length + 5) s = .next { s with
      lines := { rs := false, en := false, data := .d b }
      byte := b, isData := f, ph := .idle, dly := .none, done := true
      trace := s.trace ++ trace8 s.params.tPulseMs f b
      world := rest }

/-- 42_fourbit.md R109: the same for a 4-bit transmit, whose two delays are answered each in its own time. The model's
own in the end state are again the latches (notes/assumptions/5.md) and `done` (11.md). -/
def Obligations.FourBitTransmitRunsToTheReturn : Prop :=
  ∀ (f : Bool) (b : Byte) (s : State) (hd ans1 ans2 : Inputs) (before between after rest : List Inputs),
    s.params.busWidth = .four → s.params.lineFallible = false → s.params.dataAtomic = true →
    s.ph = .idle → s.lines.en = false → s.lines.rs = false → s.dly = .none →
    s.world = hd :: before ++ ans1 :: between ++ ans2 :: after ++ rest →
    hd.presents (reqWord f b) = true →
    4 ≤ before.length → (∀ t ∈ before, t.noAnswer = true) →
    ans1.answers s.params.tPulseMs = true →
    5 ≤ between.length → (∀ t ∈ between, t.noAnswer = true) →
    ans2.answers s.params.tPulseMs = true →
    after.length = 3 → (∀ t ∈ after, t.rst = false) →
    core.run (before.length + between.length + 6) s = .next { s with
      lines := { rs := false, en := false, data := .n (lowerNibble b) }
      byte := b, isData := f, ph := .idle, dly := .none, done := true
      trace := s.trace ++ trace4 s.params.tPulseMs f b
      world := rest }

/-- 40_shared_transmit.md R92, 20_memory.md R47: a run over a list of requests, on either variant, is over in the end
(no request left, idle, no delay pending), with `EN` and `RS` low, the data lines at the last value driven or at their
start value, and the trace the concatenation, in request order, of the traces of the requests. Here every request is
accepted; that `runOver` looks only at the requests still to come is the model's choice (notes/assumptions/24.md). -/
def Obligations.RunOfRequestsConcatenatesTheirTraces : Prop :=
  ∀ (ws : List Req9) (s : State),
    s.params.lineFallible = false → s.params.dataAtomic = true →
    s.ph = .idle → s.lines.en = false → s.lines.rs = false → s.dly = .none →
    s.world = runInputs s.params ws →
    ∃ t, core.run s.world.length s = .next t ∧ t.runOver = true ∧
      t.lines.en = false ∧ t.lines.rs = false ∧
      t.lines.data = ((ws.getLast?).elim s.lines.data fun w => lastDriven s.params.busWidth (reqByte w)) ∧
      t.trace = s.trace ++ ws.flatMap (transmitTrace s.params)

/-- 20_memory.md R47, 40_shared_transmit.md R86, whatever the inputs: a transmit in progress has made exactly the
events of the rows it has performed (none for the silent, held and consuming steps), every step keeps it so, and the
step that returns completes `Trace8` or `Trace4`. With infallible lines, the parallel data write and no reset. -/
def Obligations.TransmitInProgressFollowsItsTrace : Prop :=
  ∀ (s s' : State) (base : List Event),
    s.params.lineFallible = false → s.params.dataAtomic = true → s.phaseOk = true → s.delayOk = true →
    s.inp.rst = false → s.busy = true → s.trace = base ++ s.soFar → step s = .next s' →
    (s'.busy = true ∧ s'.trace = base ++ s'.soFar) ∨
    (s'.ph = .idle ∧ s'.trace = base ++ transmitTrace s.params (reqWord s.isData s.byte))

/-- 20_memory.md R46, R45: one transmit is one pulse record `(f, b)`, or the two records of its nibbles, upper first,
from any levels of the data lines; so it is the one abstract write of `b` to the address `f`. -/
def Obligations.PulseRecordsOfOneTransmit : Prop :=
  ∀ (t : Nat) (f : Bool) (b : Byte) (v : DataWord),
    pulseRecords { rs := false, en := false, data := v } (trace8 t f b) = [(f, .d b)] ∧
    pulseRecords { rs := false, en := false, data := v } (trace4 t f b) =
      [(f, .n (upperNibble b)), (f, .n (lowerNibble b))] ∧
    memWrites (pulseRecords { rs := false, en := false, data := v } (trace8 t f b)) = [(f, b)] ∧
    memWrites (pulseRecords { rs := false, en := false, data := v } (trace4 t f b)) = [(f, b)] ∧
    (upperNibble b).toNat * 16 + (lowerNibble b).toNat = b.toNat

/-- 40_shared_transmit.md R92, 20_memory.md R47: any run without reset, whatever is presented when and however late the
delays are answered, that starts and ends idle has made the concatenation, in the order of acceptance, of the traces of
the accepted requests; `EN` and `RS` are low and the data lines hold the last value driven, or their start value. -/
def Obligations.EveryRunTracesItsAcceptedRequests : Prop :=
  ∀ (n : Nat) (s t : State),
    s.params.lineFallible = false → s.params.dataAtomic = true →
    s.ph = .idle → s.lines.en = false → s.lines.rs = false → s.dly = .none →
    (∀ u ∈ s.world, u.rst = false) → core.run n s = .next t → t.ph = .idle →
    t.lines.en = false ∧ t.lines.rs = false ∧ t.dly = .none ∧
    t.lines.data =
      ((acceptedIn n s).getLast?.elim s.lines.data fun w => lastDriven s.params.busWidth (reqByte w)) ∧
    t.trace = s.trace ++ (acceptedIn n s).flatMap (transmitTrace s.params)

/-- 20_memory.md R44, 41_eightbit.md R98: any run without reset on infallible lines that starts and ends idle, with the
data lines written in parallel or one at a time, has written to the display exactly the accepted requests, each once,
in the order of acceptance, equal neighbours included. -/
def Obligations.DisplayReceivesTheAcceptedRequestsInOrder : Prop :=
  ∀ (n : Nat) (s t : State),
    s.inv = true → s.params.lineFallible = false → s.ph = .idle →
    (∀ u ∈ s.world, u.rst = false) → core.run n s = .next t → t.ph = .idle →
    ∃ es, t.trace = s.trace ++ es ∧
      memWrites (pulseRecords s.lines es) = (acceptedIn n s).map fun w => (reqFlag w, reqByte w)

/-- 40_shared_transmit.md R90, R81: the number of events of a transmit, by kind, on either variant, and of the calls on
single lines they stand for. -/
def Obligations.EventCountsOfOneTransmit : Prop :=
  ∀ (p : Params) (w : Req9),
    countOf (.w .en true) (transmitTrace p w) = p.busWidth.nPulses ∧
    countOf (.w .en false) (transmitTrace p w) = p.busWidth.nPulses ∧
    delaysOf (transmitTrace p w) = List.replicate p.busWidth.nPulses p.tPulseMs ∧
    (∀ v, countOf (.w .rs v) (transmitTrace p w) = if reqFlag w then 1 else 0) ∧
    (transmitTrace p w).countP Event.isWd = p.busWidth.nPulses ∧
    (transmitTrace p w).length = (4 * p.busWidth.nPulses + if reqFlag w then 2 else 0) ∧
    ((transmitTrace p w).map setCalls).sum =
      p.busWidth.nPulses * (p.busWidth.nData + 2) + if reqFlag w then 2 else 0

/-! ### Invariants -/

/-- 10_state.md R32, R33: the reset state, and every instance constructed with low resting levels, satisfies the
invariant, whatever its other parameters and inputs. -/
def Obligations.InstanceInvariantHoldsAtReset : Prop :=
  State.reset.inv = true ∧
  ∀ (p : Params) (world : List Inputs), restsLow p = true → { State.resetWith p with world := world }.inv = true

/-- 10_state.md R13, R14, R22, R25, R30, R33, R34: every step of every instance keeps the invariant, with fallible or
infallible lines, parallel or line-by-line data writes, and any inputs. -/
def Obligations.StepKeepsTheInstanceInvariant : Prop :=
  ∀ s s' : State, s.inv = true → step s = .next s' → s'.inv = true

/-- 10_state.md R33: whenever `PH = IDLE`, `EN` and `RS` are low, in every state an instance with the spec's resting
levels can reach. -/
def Obligations.EnableAndRsAreLowWhenIdle : Prop :=
  ∀ (p : Params) (s : State), restsLow p = true → Reachable p s → s.ph = .idle →
    s.lines.en = false ∧ s.lines.rs = false

/-- 10_state.md R34: whenever `EN` is high the phase is a `WAIT` phase or the `ENLO` phase that follows it, or the
instance is faulted; and a step from such a phase changes neither `RS` nor a data line, unless it is a reset. -/
def Obligations.LinesAreStableWhileEnableIsHigh : Prop :=
  ∀ s s' : State, s.inv = true → s.lines.en = true →
    (s.ph.isWait = true ∨ s.ph.isEnLo = true ∨ s.ph.isFaulted = true) ∧
    (s.inp.rst = false → step s = .next s' → s'.lines.rs = s.lines.rs ∧ s'.lines.data = s.lines.data)

/-- 20_memory.md R54, 90_conflicts.md C4, 42_fourbit.md R110: from the first drive until `RSCLR`, both nibbles
included, `RS` is `is_data`. -/
def Obligations.RsIsTheFlagThroughoutATransmit : Prop :=
  ∀ (p : Params) (s : State), restsLow p = true → Reachable p s → s.ph.rsHeld = true → s.lines.rs = s.isData

/-- 20_memory.md R53, 40_shared_transmit.md R80: in every state an instance can reach in which a pulse is about to
begin or is on, the data lines hold the byte or the nibble of that transaction. -/
def Obligations.DataLinesHoldTheTransactionsValue : Prop :=
  ∀ (p : Params) (s : State) (v : DataWord), restsLow p = true → Reachable p s →
    s.ph.dataHeld p.busWidth s.byte = some v → s.lines.data = v

/-- 20_memory.md R42: the pulses of a 4-bit instance since reset come in pairs; every step keeps it so. -/
def Obligations.FourBitPulsesStayPaired : Prop :=
  ∀ s s' : State, s.params.busWidth = .four → s.phaseOk = true → s.pulsesPaired = true → step s = .next s' →
    s'.pulsesPaired = true

/-- 20_memory.md R42: a 4-bit instance has issued an even number of pulses since reset whenever `PH = IDLE`. -/
def Obligations.FourBitPulseCountIsEvenWhenIdle : Prop :=
  ∀ (p : Params) (s : State), p.busWidth = .four → Reachable p s → s.ph = .idle →
    countOf (.w .en true) s.trace % 2 = 0

/-- 00_scope.md R2, R8, 10_state.md R31: no step changes a construction parameter. -/
def Obligations.StepKeepsTheConstructionParameters : Prop :=
  ∀ s s' : State, step s = .next s' → s'.params = s.params

/-! ### Phases and status outputs -/

/-- 10_state.md R23: `PH` advances in a straight line. Without reset a step leaves it or moves it to the next phase of
the table, or to `FAULTED`; it leaves `IDLE` exactly when a request is presented, a `WAIT` phase exactly when the
delay's answer is consumed, and with infallible lines and the parallel data write every other phase at every step. -/
def Obligations.PhasesAdvanceInAStraightLine : Prop :=
  ∀ s s' : State, s.inp.rst = false → s.ph.isFaulted = false → step s = .next s' →
    (s'.ph = s.ph ∨ s'.ph = s.ph.after s.params.busWidth ∨ s'.ph.isFaulted = true) ∧
    (s.ph = .idle → (s'.ph = .rsSet ↔ s.inp.reqValid = true) ∧ (s'.ph = .idle ↔ s.inp.reqValid = false)) ∧
    (s.ph.isWait = true → (s'.ph = s.ph.after s.params.busWidth ↔ s.dly = .ack)) ∧
    (s.ph ≠ .idle → s.ph.isWait = false → s.params.lineFallible = false → s.params.dataAtomic = true →
      s'.ph = s.ph.after s.params.busWidth)

/-- 10_state.md R24, R28: after a step, `done` is marked exactly when that step moved `PH` from `RSCLR` to `IDLE`
(and was no reset); `busy` is up from acceptance to the return. That `done` is up in the state after that step is the
model's reading of R28 (notes/assumptions/11.md). -/
def Obligations.DoneMarksExactlyTheReturn : Prop :=
  ∀ s s' : State, step s = .next s' →
    (s'.done = true ↔ s.inp.rst = false ∧ s.ph = .rsClr ∧ s'.ph = .idle) ∧
    (s.busy = true → s'.busy = false → s'.ph.isFaulted = false → s.inp.rst = false → s'.done = true) ∧
    (s.busy = false → s'.busy = true → s.ph = .idle ∧ s.inp.reqValid = true)

/-! ### Frames -/

/-- 10_state.md R20, R21, 20_memory.md R50: what a step of an instruction leaves alone: the parameters, the inputs to
come, and, but for acceptance, the request latches; outside a `WAIT` phase `DLY_PENDING`. That `RSCLR` too keeps the
latches, which have no value in `IDLE` by the spec, is the model's choice (notes/assumptions/5.md). -/
def Obligations.InstructionsKeepLatchesAndParameters : Prop :=
  ∀ (i : Instr) (s t : State), exec i s = .next t →
    t.params = s.params ∧ t.world = s.world ∧
    (s.ph ≠ .idle → t.byte = s.byte ∧ t.isData = s.isData) ∧
    (s.ph.isWait = false → t.dly = s.dly)

/-- 10_state.md R16, R17, 40_shared_transmit.md R77, 60_exceptions.md R123: a step of an instruction changes no line
register but those its row of the table writes; a failed write touches the failed line only, which is one of them. -/
def Obligations.InstructionsWriteOnlyTheirLines : Prop :=
  ∀ (i : Instr) (s t : State) (l : Line), s.bankOk = true → exec i s = .next t → mayWrite i s.ph l = false →
    t.lines.get l = s.lines.get l

/-- 40_shared_transmit.md R77: a command transmit makes no write to `RS` at all, not even one of the level it has. -/
def Obligations.CommandsMakeNoRsEvent : Prop :=
  ∀ (i : Instr) (s t : State), i.isData = false → exec i s = .next t →
    t.lines.rs = s.lines.rs ∧
    ∃ es, t.trace = s.trace ++ es ∧ ∀ v, Event.w .rs v ∉ es

/-- 00_scope.md R9, 10_state.md R15: the trace is the whole of the side effects. Each step of an instruction appends
at most one event, and unless it faults the line registers are those that the appended event leads to. -/
def Obligations.TraceIsTheWholeSideEffect : Prop :=
  ∀ (i : Instr) (s t : State), exec i s = .next t →
    ∃ es, t.trace = s.trace ++ es ∧ es.length ≤ 1 ∧
      (t.ph.isFaulted = false → t.lines = replay s.lines es) ∧
      (t.ph.isFaulted = true → es = [])

/-- 10_state.md R19: no step depends on the level of any line. With other levels on the lines of the same variant, a
step of an instruction does the same to everything else and makes the same events. -/
def Obligations.LineLevelsAreNeverRead : Prop :=
  ∀ (i : Instr) (s t : State) (ls : Lines), exec i s = .next t →
    ∃ ls', exec i { s with lines := ls } = .next { t with lines := ls' }

/-- 00_scope.md R6: no byte value is special. Whatever the byte, a step of the same form in the same state moves the
phase, `RS`, `EN`, the delay and the outputs alike (where no data line can fail). -/
def Obligations.NoByteValueIsSpecial : Prop :=
  ∀ (bw : BusWidth) (f : Bool) (b b' : Byte) (s t : State), s.params.lineFallible = false →
    exec (decode bw (reqWord f b)) s = .next t →
    ∃ t', exec (decode bw (reqWord f b')) s = .next t' ∧
      t'.ph = t.ph ∧ t'.lines.rs = t.lines.rs ∧ t'.lines.en = t.lines.en ∧ t'.dly = t.dly ∧
      t'.done = t.done ∧ t'.isData = t.isData ∧ t'.trace.length = t.trace.length

/-! ### Reset -/

/-- 10_state.md R32, 00_scope.md R7: what the spec says of the state after reset, for the reset state and for every
constructed instance. The values of the data lines, `BYTE` and `ISDATA` are the model's and are not stated
(notes/assumptions/4.md, 5.md); that `State.reset` is the 8-bit instance is the model's choice (2.md). -/
def Obligations.ResetValues : Prop :=
  State.reset = State.resetWith (Params.standard .eight) ∧
  State.reset.lines.en = false ∧ State.reset.lines.rs = false ∧
  ∀ p : Params,
    let s := State.resetWith p
    s.lines.en = p.enReset ∧ s.lines.rs = p.rsReset ∧ s.lines.data.variant = p.busWidth ∧
    s.ph = .idle ∧ s.dly = .none ∧ s.faultLine = none ∧ s.faultOut = false ∧ s.busy = false ∧ s.done = false ∧
    s.reqReady = true ∧ s.trace = []

/-- 70_reset_and_hazards.md R143, R144, 60_exceptions.md R127: with `rst` asserted the step is the reset step in every
state, mid-pulse and faulted states included; the data lines take `DB_RESET` where it is a value.
The model's choice are that one step with `rst` asserted resets (notes/assumptions/23.md), and that `DB_RESET` is held as
a byte of which the 4-bit variant takes the low nibble (4.md). -/
def Obligations.ResetWinsInEveryState : Prop :=
  ∀ s : State, s.inp.rst = true →
    ∃ t, step s = .next t ∧
      t.lines.en = s.params.enReset ∧ t.lines.rs = s.params.rsReset ∧
      t.lines.data.variant = s.params.busWidth ∧
      (∀ v, s.params.dbReset = some v → t.lines.data = dataOfByte s.params.busWidth v) ∧
      t.ph = .idle ∧ t.dly = .none ∧ t.faultLine = none ∧ t.done = false ∧ t.busy = false ∧ t.trace = [] ∧
      t.params = s.params ∧ t.world = s.world.tail

/-- 70_reset_and_hazards.md R142, 60_exceptions.md R137, 93_implementation_defined.md U2: construction gives the reset
state of an instance exactly for a width of 8 or 4, as many pins as the variant has lines, and no pin used twice or
driven by another; every other configuration is refused. The model's choice (notes/assumptions/15.md) are the refusal of
a wrong number of pins, the pins as numbers with the list `taken` of those driven by others, and the names of the
refusals. -/
def Obligations.ConstructionRefusesOtherConfigurations : Prop :=
  ∀ (w : Nat) (pins taken : List Nat) (p : Params),
    (w ≠ 8 → w ≠ 4 → construct w pins taken p = .refused (.noSuchVariant w)) ∧
    (∀ bw : BusWidth, w = 8 ∧ bw = .eight ∨ w = 4 ∧ bw = .four →
      (pins.length = bw.nData + 2 → pins.Nodup → (∀ x ∈ pins, x ∉ taken) →
        construct w pins taken p = .next (State.resetWith { p with busWidth := bw })) ∧
      (pins.length ≠ bw.nData + 2 → construct w pins taken p = .refused (.wrongLineCount pins.length)) ∧
      (pins.length = bw.nData + 2 → (¬ pins.Nodup ∨ ∃ x ∈ pins, x ∈ taken) →
        construct w pins taken p = .refused .sharedPins))

/-! ### The delay -/

/-- 40_shared_transmit.md R89, R74, 60_exceptions.md R128, R137: a delay that is never answered holds the sequencer in
its `WAIT` phase for ever, with `EN` high and busy, whatever else is presented; no fault, no timeout, no event. The
clause on `done` is the model's reading (notes/assumptions/11.md). -/
def Obligations.UnansweredDelayHoldsTheSequencer : Prop :=
  ∀ (n : Nat) (s : State), s.inv = true → s.heldByDelay = true →
    (∀ t ∈ s.world.take n, t.noAnswer = true) →
    core.run n s = .next { s with world := s.world.drop n, done := s.done && n == 0 } ∧
    s.lines.en = true ∧ s.busy = true

/-! ### The fault -/

/-- 60_exceptions.md R123: fault entry from a write of `RS` or `EN`, for each of the four instructions: `FAULTED` with
that line recorded, every other line, the trace and the latches as they were, `done` not marked. That the entry is a
next state of `exec` is the model's choice (notes/assumptions/8.md). -/
def Obligations.FailedRsOrEnableWriteEntersTheFault : Prop :=
  ∀ (i : Instr) (s : State) (l : Line),
    s.params.busWidth = i.busWidth → s.phaseOk = true → s.params.lineFallible = true → l ∈ s.inp.fails →
    (l = .rs ∨ l = .en) → mayWrite i s.ph l = true →
    ∃ t, exec i s = .next t ∧ t.ph = .faulted l ∧ t.faultLine = some l ∧ t.faultOut = true ∧ t.busy = false ∧
      t.done = false ∧ t.trace = s.trace ∧ t.byte = s.byte ∧ t.isData = s.isData ∧ t.dly = s.dly ∧
      (∀ l', l' ≠ l → t.lines.get l' = s.lines.get l')

/-- 60_exceptions.md R122, R123, 40_shared_transmit.md R73: the parallel data write faults if any one of the data
lines fails; the line reported is one that failed, and every other line keeps its level. That the entry is a next state
of `exec` is the model's choice (notes/assumptions/8.md). -/
def Obligations.FailedDataWriteEntersTheFault : Prop :=
  ∀ (i : Instr) (s : State) (k : Nat) (v : DataWord),
    s.params.busWidth = i.busWidth → s.params.lineFallible = true → s.params.dataAtomic = true →
    (s.ph = .drive ∧ v = .d i.byte ∨ s.ph = .driveHi ∧ v = .n (upperNibble i.byte)
      ∨ s.ph = .driveLo ∧ v = .n (lowerNibble i.byte)) → v.variant = i.busWidth →
    k < i.busWidth.nData → v.line k ∈ s.inp.fails →
    ∃ t l, exec i s = .next t ∧ l ∈ v.lines ∧ l ∈ s.inp.fails ∧ t.ph = .faulted l ∧ t.done = false ∧
      t.trace = s.trace ∧ t.byte = s.byte ∧ t.isData = s.isData ∧ t.dly = s.dly ∧
      (∀ l', l' ≠ l → t.lines.get l' = s.lines.get l')

/-- 60_exceptions.md R120, R126, 41_eightbit.md R98, 42_fourbit.md R115: a step of a line-by-line drive with a data line
left to write does one of two things on one such line `j`: it faults at that line if the line fails, and writes it
otherwise, staying in the phase while another is left. Which line `j` is, is a free value; the mask of the lines written
is the model's own (notes/assumptions/10.md), and that fault entry is a next state of `exec` its choice (8.md). -/
def Obligations.LineByLineStepWritesOneLineOrFaultsAtIt : Prop :=
  ∀ (i : Instr) (s : State) (v : DataWord),
    s.params.busWidth = i.busWidth → s.params.dataAtomic = false →
    (s.ph = .drive ∧ v = .d i.byte ∨ s.ph = .driveHi ∧ v = .n (upperNibble i.byte)
      ∨ s.ph = .driveLo ∧ v = .n (lowerNibble i.byte)) → v.variant = i.busWidth →
    (∃ k, k < i.busWidth.nData ∧ s.driven.getLsbD k = false) →
    ∃ j, j < i.busWidth.nData ∧ s.driven.getLsbD j = false ∧
      (s.writeFails (v.line j) = true →
        ∃ t, exec i s = .next t ∧ t.ph = .faulted (v.line j) ∧ t.done = false ∧ t.trace = s.trace ∧
          t.byte = s.byte ∧ t.isData = s.isData ∧ t.dly = s.dly ∧
          (∀ l', l' ≠ v.line j → t.lines.get l' = s.lines.get l')) ∧
      (s.writeFails (v.line j) = false →
        ∃ (ph : Phase) (driven : BitVec 8) (draws : Nat),
          exec i s = .next { s with
            lines := s.lines.set (v.line j) (v.bit j)
            trace := s.trace ++ [.w (v.line j) (v.bit j)]
            ph := ph, driven := driven, draws := draws, done := false } ∧
          ((∃ k, k < i.busWidth.nData ∧ k ≠ j ∧ s.driven.getLsbD k = false) →
            ph = s.ph ∧ ∀ k, k < i.busWidth.nData → driven.getLsbD k = (s.driven.getLsbD k || k == j)) ∧
          ((∀ k, k < i.busWidth.nData → k ≠ j → s.driven.getLsbD k = true) →
            ph = s.ph.after i.busWidth ∧ driven = 0))

/-- 40_shared_transmit.md R73, 60_exceptions.md R120, R126, 41_eightbit.md R98, 42_fourbit.md R115: with
`DATA_ATOMIC = false`, where every data line left to write in the phase fails, the step faults at one of them. That the
entry is a next state of `exec` is the model's choice (notes/assumptions/8.md). -/
def Obligations.FailedSingleDataWriteEntersTheFault : Prop :=
  ∀ (i : Instr) (s : State) (v : DataWord),
    s.params.busWidth = i.busWidth → s.params.lineFallible = true → s.params.dataAtomic = false →
    (s.ph = .drive ∧ v = .d i.byte ∨ s.ph = .driveHi ∧ v = .n (upperNibble i.byte)
      ∨ s.ph = .driveLo ∧ v = .n (lowerNibble i.byte)) → v.variant = i.busWidth →
    (∃ k, k < i.busWidth.nData ∧ s.driven.getLsbD k = false) →
    (∀ k, k < i.busWidth.nData → s.driven.getLsbD k = false → v.line k ∈ s.inp.fails) →
    ∃ t j, exec i s = .next t ∧ j < i.busWidth.nData ∧ s.driven.getLsbD j = false ∧ t.ph = .faulted (v.line j) ∧
      t.faultLine = some (v.line j) ∧ t.faultOut = true ∧ t.busy = false ∧ t.done = false ∧ t.trace = s.trace ∧
      t.byte = s.byte ∧ t.isData = s.isData ∧ t.dly = s.dly ∧
      (∀ l', l' ≠ v.line j → t.lines.get l' = s.lines.get l')

/-- 60_exceptions.md R120, R121: the fault is raised only with fallible lines, only by a step that writes the line that
failed, and never by a step of `RSSET` or `RSCLR` of a command, by acceptance or by a `WAIT` phase. -/
def Obligations.FaultsComeOnlyFromFailedWrites : Prop :=
  ∀ (i : Instr) (s t : State) (l : Line), exec i s = .next t → t.ph = .faulted l → s.ph ≠ .faulted l →
    s.params.lineFallible = true ∧ l ∈ s.inp.fails ∧ mayWrite i s.ph l = true ∧
    s.ph ≠ .idle ∧ s.ph.isWait = false

/-- 60_exceptions.md R123: fault entry, whichever write failed, parallel or single: `FAULTED` with the line recorded,
`fault` up, `busy` down, `done` not marked, no event appended, the latches and every other line as they were. The level
of the failed line is not stated. That the entry is a next state of `exec` is the model's choice
(notes/assumptions/8.md). -/
def Obligations.FaultEntryTouchesOnlyTheFailedLine : Prop :=
  ∀ (i : Instr) (s t : State) (l : Line), exec i s = .next t → t.ph = .faulted l → s.ph ≠ .faulted l →
    t.faultLine = some l ∧ t.faultOut = true ∧ t.busy = false ∧ t.done = false ∧ t.trace = s.trace ∧
    t.byte = s.byte ∧ t.isData = s.isData ∧ t.dly = s.dly ∧
    (∀ l', l' ≠ l → t.lines.get l' = s.lines.get l')

/-- 60_exceptions.md R125: in `FAULTED` no request is accepted and nothing but reset changes anything: while inputs
come, none of which is reset, the state stays as it is (`done` unmarked); reset leaves it; it is no end of a run. That
it is held in next states, and only while inputs come, is the model's choice (notes/assumptions/8.md), as is what
`runOver` asks of the requests (24.md); the clause on `done` is its reading (11.md). -/
def Obligations.FaultedInstanceIsDead : Prop :=
  ∀ (s : State) (l : Line), s.ph = .faulted l →
    s.reqReady = false ∧ s.runOver = false ∧
    (s.inp.rst = true → ∃ t, step s = .next t ∧ t.ph = .idle) ∧
    (∀ n, (∀ t ∈ s.world, t.rst = false) → n ≤ s.world.length →
      core.run n s = .next { s with world := s.world.drop n, done := s.done && n == 0 })

/-- The model's choice (notes/assumptions/8.md, DESIGN CHOICE): a faulted instance to which no further input comes, so
that no reset can, stops with the fault of its line. -/
def Obligations.FaultedInstanceWithoutInputsStops : Prop :=
  ∀ (s : State) (l : Line), s.ph = .faulted l → s.world = [] → step s = .fault (.lineSetFault l)

/-- 60_exceptions.md R121, 40_shared_transmit.md R91: with infallible lines every step of an instance answers a next
state, never `FAULTED`. -/
def Obligations.InfallibleLinesNeverFault : Prop :=
  ∀ s : State, s.inv = true → s.params.lineFallible = false → ∃ t, step s = .next t ∧ t.ph.isFaulted = false

/-- 40_shared_transmit.md R91, 60_exceptions.md R137: no step of an instance is ever refused. -/
def Obligations.NoStepIsRefused : Prop :=
  ∀ (s : State) (r : Refusal), s.inv = true → step s ≠ .refused r

/-- 30_encoding.md R59: the meaning of an instruction of the other variant is refused by name, in every state; the name is
the model's (notes/assumptions/14.md). -/
def Obligations.OtherVariantsInstructionsAreRefused : Prop :=
  ∀ (i : Instr) (s : State), i.wellFormed s.params.busWidth = false → exec i s = .refused .otherVariant
end

