-- ==== Sys2Proof/Laws/Decode.lean ====
section
/-! SUPPORT. Laws of the request format. -/

namespace Sys2Proof

@[simp] theorem reqFlag_reqWord (f : Bool) (b : Byte) : reqFlag (reqWord f b) = f := by
  show (BitVec.ofBool f ++ b : BitVec (1 + 8)).getLsbD 8 = f
  rw [BitVec.getLsbD_append]
  cases f <;> rfl

@[simp] theorem reqByte_reqWord (f : Bool) (b : Byte) : reqByte (reqWord f b) = b := by
  refine BitVec.eq_of_getLsbD_eq fun k hk => ?_
  rw [reqByte, BitVec.getLsbD_extractLsb']
  show (decide (k < 8) && (BitVec.ofBool f ++ b : BitVec (1 + 8)).getLsbD (0 + k)) = b.getLsbD k
  rw [BitVec.getLsbD_append]
  simp [hk]

@[simp] theorem reqWord_reqFlag_reqByte (w : Req9) : reqWord (reqFlag w) (reqByte w) = w := by
  refine BitVec.eq_of_getLsbD_eq fun k hk => ?_
  show (BitVec.ofBool (reqFlag w) ++ reqByte w : BitVec (1 + 8)).getLsbD k = w.getLsbD k
  rw [BitVec.getLsbD_append]
  by_cases h : k < 8
  · simp [h, reqByte]
  · have : k = 8 := by omega
    subst this
    simp [reqFlag]

@[simp] theorem decode_busWidth (bw : BusWidth) (w : Req9) : (decode bw w).busWidth = bw := by
  cases bw <;> unfold decode <;> split <;> simp_all [Instr.busWidth]

@[simp] theorem decode_isData (bw : BusWidth) (w : Req9) : (decode bw w).isData = reqFlag w := by
  cases bw <;> unfold decode <;> split <;> simp_all [Instr.isData]

@[simp] theorem decode_byte (bw : BusWidth) (w : Req9) : (decode bw w).byte = reqByte w := by
  cases bw <;> unfold decode <;> split <;> simp_all [Instr.byte]

end Sys2Proof
end

