-- ==== Sys2Proof/Laws/Operands.lean ====
section
/-! SUPPORT. Laws of the operand forms and of the banks of line registers. -/

namespace Sys2Proof.Machine

/-! ### Setting one bit -/

theorem setBit_getLsbD {n : Nat} (x : BitVec n) (k : Nat) (v : Level) (j : Nat) (hk : k < n) :
    (setBit x k v).getLsbD j = if j = k then v else x.getLsbD j := by
  rcases eq_or_ne j k with rfl | h
  · cases v <;> simp [setBit, hk]
  · cases v <;> simp [setBit, BitVec.getLsbD_twoPow, h, Ne.symm h]
    intro hx
    exact BitVec.lt_of_getLsbD hx

/-! ### Data-line values -/

@[simp] theorem DataWord.variant_d (v : Byte) : (DataWord.d v).variant = .eight := rfl
@[simp] theorem DataWord.variant_n (v : Nibble) : (DataWord.n v).variant = .four := rfl

@[simp] theorem variant_dataOfByte (bw : BusWidth) (b : Byte) : (dataOfByte bw b).variant = bw := by
  cases bw <;> rfl

@[simp] theorem variant_setLine (w : DataWord) (l : Line) (v : Level) : (w.setLine l v).variant = w.variant := by
  cases w <;> cases l <;> rfl

theorem mem_lines_iff (v : DataWord) (l : Line) : l ∈ v.lines ↔ ∃ k, k < v.variant.nData ∧ v.line k = l := by
  simp [DataWord.lines]

/-- Every data line of a value is a data line of its variant, neither `RS` nor `EN`. -/
theorem line_ne_rs (v : DataWord) (k : Nat) : v.line k ≠ .rs := by cases v <;> simp [DataWord.line]
theorem line_ne_en (v : DataWord) (k : Nat) : v.line k ≠ .en := by cases v <;> simp [DataWord.line]

/-- Two values of one variant that agree on every bit are equal. -/
theorem DataWord.ext_bit (v w : DataWord) (h : v.variant = w.variant)
    (hb : ∀ k, k < v.variant.nData → v.bit k = w.bit k) : v = w := by
  cases v <;> cases w <;> simp_all [DataWord.variant, DataWord.bit, BusWidth.nData]
  all_goals
    refine BitVec.eq_of_getLsbD_eq fun k hk => hb k hk

/-- Setting data line `k` sets bit `k` and no other. -/
theorem bit_setLine (w v : DataWord) (h : w.variant = v.variant) (k j : Nat) (hk : k < v.variant.nData)
    (x : Level) : (w.setLine (v.line k) x).bit j = if j = k then x else w.bit j := by
  cases w <;> cases v <;> simp_all [DataWord.variant, DataWord.line, DataWord.setLine, DataWord.bit, BusWidth.nData]
  all_goals
    rw [Nat.mod_eq_of_lt hk]
    exact setBit_getLsbD _ _ _ _ hk

/-! ### Line registers -/

theorem Lines.get_set_ne (ls : Lines) (l l' : Line) (v : Level) (h : l' ≠ l) : (ls.set l v).get l' = ls.get l' := by
  obtain ⟨r, e, w⟩ := ls
  cases l <;> cases l' <;> cases w <;>
    simp_all [Lines.set, Lines.get, DataWord.setLine, Fin.ext_iff]
  all_goals
    rw [← BitVec.getLsbD_eq_getElem, ← BitVec.getLsbD_eq_getElem, setBit_getLsbD _ _ _ _ (Fin.isLt _), if_neg h]

@[simp] theorem Lines.set_variant (ls : Lines) (l : Line) (v : Level) :
    (ls.set l v).data.variant = ls.data.variant := by
  cases l <;> simp [Lines.set]

theorem Lines.set_rs_of_ne (ls : Lines) (l : Line) (v : Level) (h : l ≠ .rs) : (ls.set l v).rs = ls.rs := by
  cases l <;> simp_all [Lines.set]

theorem Lines.set_en_of_ne (ls : Lines) (l : Line) (v : Level) (h : l ≠ .en) : (ls.set l v).en = ls.en := by
  cases l <;> simp_all [Lines.set]

@[simp] theorem Lines.set_rs_data (ls : Lines) (v : Level) : (ls.set .rs v).data = ls.data := rfl
@[simp] theorem Lines.set_en_data (ls : Lines) (v : Level) : (ls.set .en v).data = ls.data := rfl
@[simp] theorem Lines.set_rs (ls : Lines) (v : Level) : ls.set .rs v = { ls with rs := v } := rfl
@[simp] theorem Lines.set_en (ls : Lines) (v : Level) : ls.set .en v = { ls with en := v } := rfl
@[simp] theorem Lines.setData_data (ls : Lines) (v : DataWord) : (ls.setData v).data = v := rfl
@[simp] theorem Lines.setData_rs (ls : Lines) (v : DataWord) : (ls.setData v).rs = ls.rs := rfl
@[simp] theorem Lines.setData_en (ls : Lines) (v : DataWord) : (ls.setData v).en = ls.en := rfl

theorem Lines.set_line (ls : Lines) (v : DataWord) (k : Nat) (x : Level) :
    ls.set (v.line k) x = { ls with data := ls.data.setLine (v.line k) x } := by
  cases v <;> rfl

/-! ### Traces -/

@[simp] theorem replay_nil (ls : Lines) : replay ls [] = ls := rfl
@[simp] theorem replay_cons (ls : Lines) (e : Event) (es : List Event) :
    replay ls (e :: es) = replay (ls.apply e) es := rfl

theorem replay_append (ls : Lines) (es es' : List Event) :
    replay ls (es ++ es') = replay (replay ls es) es' := by
  simp [replay, List.foldl_append]

theorem pulseRecords_append (ls : Lines) (es es' : List Event) :
    pulseRecords ls (es ++ es') = pulseRecords ls es ++ pulseRecords (replay ls es) es' := by
  induction es generalizing ls with
  | nil => rfl
  | cons e es ih =>
    simp only [List.cons_append, pulseRecords, replay_cons, ih]
    split <;> rfl

end Sys2Proof.Machine
end

