-- ==== Sys2Proof/Laws/State.lean ====
section
/-! SUPPORT. The fields of the state after each update that the operations make, one lemma per field per update. -/

namespace Sys2Proof.Machine

variable (s : State)

/-! ### advance -/

@[simp] theorem State.advance_params : (s.advance).params = s.params := rfl
@[simp] theorem State.advance_lines : (s.advance).lines = s.lines := rfl
@[simp] theorem State.advance_byte : (s.advance).byte = s.byte := rfl
@[simp] theorem State.advance_isData : (s.advance).isData = s.isData := rfl
@[simp] theorem State.advance_ph : (s.advance).ph = s.ph := rfl
@[simp] theorem State.advance_dly : (s.advance).dly = s.dly := rfl
@[simp] theorem State.advance_done : (s.advance).done = s.done := rfl
@[simp] theorem State.advance_driven : (s.advance).driven = s.driven := rfl
@[simp] theorem State.advance_draws : (s.advance).draws = s.draws := rfl
@[simp] theorem State.advance_trace : (s.advance).trace = s.trace := rfl
@[simp] theorem State.advance_world : (s.advance).world = s.world.tail := rfl

/-! ### goto -/

@[simp] theorem State.goto_params (p : Phase) : (s.goto p).params = s.params := rfl
@[simp] theorem State.goto_lines (p : Phase) : (s.goto p).lines = s.lines := rfl
@[simp] theorem State.goto_byte (p : Phase) : (s.goto p).byte = s.byte := rfl
@[simp] theorem State.goto_isData (p : Phase) : (s.goto p).isData = s.isData := rfl
@[simp] theorem State.goto_ph (p : Phase) : (s.goto p).ph = p := rfl
@[simp] theorem State.goto_dly (p : Phase) : (s.goto p).dly = s.dly := rfl
@[simp] theorem State.goto_done (p : Phase) : (s.goto p).done = false := rfl
@[simp] theorem State.goto_driven (p : Phase) : (s.goto p).driven = s.driven := rfl
@[simp] theorem State.goto_draws (p : Phase) : (s.goto p).draws = s.draws := rfl
@[simp] theorem State.goto_trace (p : Phase) : (s.goto p).trace = s.trace := rfl
@[simp] theorem State.goto_world (p : Phase) : (s.goto p).world = s.world := rfl

/-! ### hold -/

@[simp] theorem State.hold_params : (s.hold).params = s.params := rfl
@[simp] theorem State.hold_lines : (s.hold).lines = s.lines := rfl
@[simp] theorem State.hold_byte : (s.hold).byte = s.byte := rfl
@[simp] theorem State.hold_isData : (s.hold).isData = s.isData := rfl
@[simp] theorem State.hold_ph : (s.hold).ph = s.ph := rfl
@[simp] theorem State.hold_dly : (s.hold).dly = s.dly := rfl
@[simp] theorem State.hold_done : (s.hold).done = false := rfl
@[simp] theorem State.hold_driven : (s.hold).driven = s.driven := rfl
@[simp] theorem State.hold_draws : (s.hold).draws = s.draws := rfl
@[simp] theorem State.hold_trace : (s.hold).trace = s.trace := rfl
@[simp] theorem State.hold_world : (s.hold).world = s.world := rfl

/-! ### raiseLineSetFault -/

@[simp] theorem State.raiseLineSetFault_params (l : Line) : (s.raiseLineSetFault l).params = s.params := rfl
@[simp] theorem State.raiseLineSetFault_lines (l : Line) : (s.raiseLineSetFault l).lines = s.lines.set l (Config.freeLevel s.draws) := rfl
@[simp] theorem State.raiseLineSetFault_byte (l : Line) : (s.raiseLineSetFault l).byte = s.byte := rfl
@[simp] theorem State.raiseLineSetFault_isData (l : Line) : (s.raiseLineSetFault l).isData = s.isData := rfl
@[simp] theorem State.raiseLineSetFault_ph (l : Line) : (s.raiseLineSetFault l).ph = .faulted l := rfl
@[simp] theorem State.raiseLineSetFault_dly (l : Line) : (s.raiseLineSetFault l).dly = s.dly := rfl
@[simp] theorem State.raiseLineSetFault_done (l : Line) : (s.raiseLineSetFault l).done = false := rfl
@[simp] theorem State.raiseLineSetFault_driven (l : Line) : (s.raiseLineSetFault l).driven = 0 := rfl
@[simp] theorem State.raiseLineSetFault_draws (l : Line) : (s.raiseLineSetFault l).draws = s.draws + 1 := rfl
@[simp] theorem State.raiseLineSetFault_trace (l : Line) : (s.raiseLineSetFault l).trace = s.trace := rfl
@[simp] theorem State.raiseLineSetFault_world (l : Line) : (s.raiseLineSetFault l).world = s.world := rfl

/-! ### issueDelay -/

@[simp] theorem State.issueDelay_params : (s.issueDelay).params = s.params := rfl
@[simp] theorem State.issueDelay_lines : (s.issueDelay).lines = s.lines := rfl
@[simp] theorem State.issueDelay_byte : (s.issueDelay).byte = s.byte := rfl
@[simp] theorem State.issueDelay_isData : (s.issueDelay).isData = s.isData := rfl
@[simp] theorem State.issueDelay_ph : (s.issueDelay).ph = s.ph := rfl
@[simp] theorem State.issueDelay_dly : (s.issueDelay).dly = .req s.params.tPulseMs := rfl
@[simp] theorem State.issueDelay_done : (s.issueDelay).done = false := rfl
@[simp] theorem State.issueDelay_driven : (s.issueDelay).driven = s.driven := rfl
@[simp] theorem State.issueDelay_draws : (s.issueDelay).draws = s.draws := rfl
@[simp] theorem State.issueDelay_trace : (s.issueDelay).trace = s.trace ++ [.dly s.params.tPulseMs] := rfl
@[simp] theorem State.issueDelay_world : (s.issueDelay).world = s.world := rfl

/-! ### consumeDelay -/

@[simp] theorem State.consumeDelay_params (p : Phase) : (s.consumeDelay p).params = s.params := rfl
@[simp] theorem State.consumeDelay_lines (p : Phase) : (s.consumeDelay p).lines = s.lines := rfl
@[simp] theorem State.consumeDelay_byte (p : Phase) : (s.consumeDelay p).byte = s.byte := rfl
@[simp] theorem State.consumeDelay_isData (p : Phase) : (s.consumeDelay p).isData = s.isData := rfl
@[simp] theorem State.consumeDelay_ph (p : Phase) : (s.consumeDelay p).ph = p := rfl
@[simp] theorem State.consumeDelay_dly (p : Phase) : (s.consumeDelay p).dly = .none := rfl
@[simp] theorem State.consumeDelay_done (p : Phase) : (s.consumeDelay p).done = false := rfl
@[simp] theorem State.consumeDelay_driven (p : Phase) : (s.consumeDelay p).driven = s.driven := rfl
@[simp] theorem State.consumeDelay_draws (p : Phase) : (s.consumeDelay p).draws = s.draws := rfl
@[simp] theorem State.consumeDelay_trace (p : Phase) : (s.consumeDelay p).trace = s.trace := rfl
@[simp] theorem State.consumeDelay_world (p : Phase) : (s.consumeDelay p).world = s.world := rfl

/-! ### accept -/

@[simp] theorem State.accept_params (f : Bool) (b : Byte) : (s.accept f b).params = s.params := rfl
@[simp] theorem State.accept_lines (f : Bool) (b : Byte) : (s.accept f b).lines = s.lines := rfl
@[simp] theorem State.accept_byte (f : Bool) (b : Byte) : (s.accept f b).byte = b := rfl
@[simp] theorem State.accept_isData (f : Bool) (b : Byte) : (s.accept f b).isData = f := rfl
@[simp] theorem State.accept_ph (f : Bool) (b : Byte) : (s.accept f b).ph = .rsSet := rfl
@[simp] theorem State.accept_dly (f : Bool) (b : Byte) : (s.accept f b).dly = s.dly := rfl
@[simp] theorem State.accept_done (f : Bool) (b : Byte) : (s.accept f b).done = false := rfl
@[simp] theorem State.accept_driven (f : Bool) (b : Byte) : (s.accept f b).driven = s.driven := rfl
@[simp] theorem State.accept_draws (f : Bool) (b : Byte) : (s.accept f b).draws = s.draws := rfl
@[simp] theorem State.accept_trace (f : Bool) (b : Byte) : (s.accept f b).trace = s.trace := rfl
@[simp] theorem State.accept_world (f : Bool) (b : Byte) : (s.accept f b).world = s.world := rfl

/-! ### applyReset -/

@[simp] theorem State.applyReset_params : (s.applyReset).params = s.params := rfl
@[simp] theorem State.applyReset_lines : (s.applyReset).lines = 
      { rs := s.params.rsReset
        en := s.params.enReset
        data := dataOfByte s.params.busWidth (s.params.dbReset.getD (Config.freeData s.draws)) } := rfl
@[simp] theorem State.applyReset_byte : (s.applyReset).byte = 0 := rfl
@[simp] theorem State.applyReset_isData : (s.applyReset).isData = false := rfl
@[simp] theorem State.applyReset_ph : (s.applyReset).ph = .idle := rfl
@[simp] theorem State.applyReset_dly : (s.applyReset).dly = .none := rfl
@[simp] theorem State.applyReset_done : (s.applyReset).done = false := rfl
@[simp] theorem State.applyReset_driven : (s.applyReset).driven = 0 := rfl
@[simp] theorem State.applyReset_draws : (s.applyReset).draws = s.draws + 1 := rfl
@[simp] theorem State.applyReset_trace : (s.applyReset).trace = [] := rfl
@[simp] theorem State.applyReset_world : (s.applyReset).world = s.world := rfl

end Sys2Proof.Machine
end

