-- ==== Sys2Proof/Laws/Ops.lean ====
section
/-! SUPPORT. One lemma per shared operation that says everything it can do. -/

namespace Sys2Proof.Machine

variable {s t : State}

/-! ### Inputs and outcomes -/

@[simp] theorem advanceOutcome_next (s : State) : advanceOutcome (.next s) = .next s.advance := rfl
@[simp] theorem advanceOutcome_fault (r : Fault) : advanceOutcome (.fault r) = .fault r := rfl
@[simp] theorem advanceOutcome_refused (r : Refusal) : advanceOutcome (.refused r) = .refused r := rfl

theorem advanceOutcome_eq_next {o : Host.Outcome State Fault Refusal} (h : advanceOutcome o = .next t) :
    ∃ u, o = .next u ∧ t = u.advance := by
  cases o <;> simp_all [advanceOutcome]

@[simp] theorem inp_nil (s : State) : ({ s with world := [] } : State).inp = Inputs.quiet := rfl
@[simp] theorem inp_cons (s : State) (i : Inputs) (is : List Inputs) :
    ({ s with world := i :: is } : State).inp = i := rfl

theorem inp_of_nil (h : s.world = []) : s.inp = Inputs.quiet := by simp [State.inp, h]
theorem inp_of_cons {i : Inputs} {is : List Inputs} (h : s.world = i :: is) : s.inp = i := by simp [State.inp, h]

/-! ### The fault -/

theorem writeFails_iff (l : Line) : s.writeFails l = true ↔ s.params.lineFallible = true ∧ l ∈ s.inp.fails := by
  simp [State.writeFails]

theorem writeFails_of_infallible (h : s.params.lineFallible = false) (l : Line) : s.writeFails l = false := by
  simp [State.writeFails, h]

/-- In `FAULTED`: held while inputs come, stopped with the fault where none does. -/
theorem dead_eq_next_iff (l : Line) : s.dead l = .next t ↔ s.world ≠ [] ∧ t = s.hold := by
  unfold State.dead
  split <;> simp_all [eq_comm]

theorem dead_ne_refused (l : Line) (r : Refusal) : s.dead l ≠ .refused r := by
  unfold State.dead
  split <;> simp

/-! ### Line writes -/

/-- A line write succeeds, or enters the fault. -/
theorem writeLine_cases (l : Line) (v : Level) (nxt : Phase) (s : State) :
    (s.writeFails l = true ∧ s.writeLine l v nxt = s.raiseLineSetFault l) ∨
    (s.writeFails l = false ∧ s.writeLine l v nxt =
      { s with lines := s.lines.set l v, trace := s.trace ++ [.w l v], ph := nxt, done := false }) := by
  unfold State.writeLine
  cases h : s.writeFails l <;> simp

theorem writeLine_of_succeeds {l : Line} (h : s.writeFails l = false) (v : Level) (nxt : Phase) :
    s.writeLine l v nxt =
      { s with lines := s.lines.set l v, trace := s.trace ++ [.w l v], ph := nxt, done := false } := by
  simp [State.writeLine, h]

theorem writeLine_of_infallible (h : s.params.lineFallible = false) (l : Line) (v : Level) (nxt : Phase) :
    s.writeLine l v nxt =
      { s with lines := s.lines.set l v, trace := s.trace ++ [.w l v], ph := nxt, done := false } := by
  simp [State.writeLine, writeFails_of_infallible h]

theorem pickOne_mem {α : Type} (n : Nat) (a : α) (l : List α) : pickOne n a l ∈ a :: l := by
  have hlt : Config.freePick n % (l.length + 1) < (a :: l).length := by
    simpa using Nat.mod_lt _ (Nat.succ_pos _)
  rw [pickOne, List.getD_eq_getElem _ _ hlt]
  exact List.getElem_mem hlt

/-- The parallel data write loads every data line, or enters the fault at a data line that failed. -/
theorem driveAll_cases (v : DataWord) (nxt : Phase) (s : State) :
    (∃ l, l ∈ v.lines ∧ s.writeFails l = true ∧ s.driveAll v nxt = s.raiseLineSetFault l) ∨
    ((∀ l ∈ v.lines, s.writeFails l = false) ∧ s.driveAll v nxt =
      { s with lines := s.lines.setData v, trace := s.trace ++ [.wd v], ph := nxt, done := false }) := by
  unfold State.driveAll
  split
  · rename_i h
    right
    simpa using h
  · rename_i l ls h
    have hm := pickOne_mem s.draws l ls
    rw [← h, List.mem_filter] at hm
    exact .inl ⟨_, hm.1, hm.2, rfl⟩

theorem mem_undriven (v : DataWord) (s : State) (k : Nat) :
    k ∈ s.undriven v ↔ k < v.variant.nData ∧ s.driven.getLsbD k = false := by
  simp [State.undriven]

/-- One write of a line-by-line drive: nothing is left to write; or some data line not written yet fails; or one is
written, the last of them or not. -/
theorem driveOne_cases (v : DataWord) (nxt : Phase) (s : State) :
    (s.undriven v = [] ∧ s.driveOne v nxt = { s with ph := nxt, driven := 0, done := false }) ∨
    (∃ j, j ∈ s.undriven v ∧ s.writeFails (v.line j) = true ∧ s.driveOne v nxt = s.raiseLineSetFault (v.line j)) ∨
    (∃ j, j ∈ s.undriven v ∧ s.writeFails (v.line j) = false ∧ ∃ ph driven,
      ((s.undriven v).length = 1 ∧ ph = nxt ∧ driven = 0 ∨
        2 ≤ (s.undriven v).length ∧ ph = s.ph ∧ driven = setBit s.driven j true) ∧
      s.driveOne v nxt = { s with
        lines := s.lines.set (v.line j) (v.bit j)
        trace := s.trace ++ [.w (v.line j) (v.bit j)]
        draws := s.draws + 1
        ph := ph
        driven := driven
        done := false }) := by
  unfold State.driveOne
  split
  · rename_i h
    exact .inl ⟨h, rfl⟩
  · rename_i k ks h
    have hm : pickOne s.draws k ks ∈ s.undriven v := h ▸ pickOne_mem s.draws k ks
    right
    dsimp only
    split
    · rename_i hf
      exact .inl ⟨_, hm, hf, rfl⟩
    · rename_i hf
      refine .inr ⟨_, hm, by simpa using hf, _, _, ?_, rfl⟩
      rw [h]
      cases ks with
      | nil => exact .inl ⟨rfl, rfl, rfl⟩
      | cons a l => exact .inr ⟨by simp, rfl, rfl⟩

/-- What a drive of the data lines can do, parallel or line by line, with its effect on each field. -/
theorem drive_cases (v : DataWord) (nxt : Phase) (s : State) :
    (∃ l, l ∈ v.lines ∧ s.writeFails l = true ∧ s.drive v nxt = s.raiseLineSetFault l) ∨
    (s.params.dataAtomic = true ∧ (∀ l ∈ v.lines, s.writeFails l = false) ∧ s.drive v nxt =
      { s with lines := s.lines.setData v, trace := s.trace ++ [.wd v], ph := nxt, done := false }) ∨
    (s.params.dataAtomic = false ∧ s.undriven v = [] ∧
      s.drive v nxt = { s with ph := nxt, driven := 0, done := false }) ∨
    (s.params.dataAtomic = false ∧ ∃ j, j < v.variant.nData ∧ s.driven.getLsbD j = false ∧
      s.writeFails (v.line j) = false ∧ ∃ ph driven,
      ((s.undriven v).length = 1 ∧ ph = nxt ∧ driven = 0 ∨
        2 ≤ (s.undriven v).length ∧ ph = s.ph ∧ driven = setBit s.driven j true) ∧
      s.drive v nxt = { s with
        lines := s.lines.set (v.line j) (v.bit j)
        trace := s.trace ++ [.w (v.line j) (v.bit j)]
        draws := s.draws + 1
        ph := ph
        driven := driven
        done := false }) := by
  unfold State.drive
  split
  · rename_i ha
    rcases driveAll_cases v nxt s with h | ⟨h, e⟩
    · exact .inl h
    · exact .inr (.inl ⟨ha, h, e⟩)
  · rename_i ha
    rw [Bool.not_eq_true] at ha
    rcases driveOne_cases v nxt s with ⟨h, e⟩ | ⟨j, hj, hf, e⟩ | ⟨j, hj, hf, e⟩
    · exact .inr (.inr (.inl ⟨ha, h, e⟩))
    · refine .inl ⟨_, ?_, hf, e⟩
      exact (mem_lines_iff _ _).2 ⟨j, ((mem_undriven _ _ _).1 hj).1, rfl⟩
    · exact .inr (.inr (.inr ⟨ha, j, ((mem_undriven _ _ _).1 hj).1, ((mem_undriven _ _ _).1 hj).2, hf, e⟩))

theorem drive_of_succeeds {v : DataWord} (ha : s.params.dataAtomic = true) (h : ∀ l ∈ v.lines, s.writeFails l = false)
    (nxt : Phase) :
    s.drive v nxt = { s with lines := s.lines.setData v, trace := s.trace ++ [.wd v], ph := nxt, done := false } := by
  have hn : v.lines.filter s.writeFails = [] := List.filter_eq_nil_iff.2 fun l hl => by simp [h l hl]
  simp [State.drive, ha, State.driveAll, hn]

theorem drive_of_plain (hf : s.params.lineFallible = false) (ha : s.params.dataAtomic = true) (v : DataWord)
    (nxt : Phase) :
    s.drive v nxt = { s with lines := s.lines.setData v, trace := s.trace ++ [.wd v], ph := nxt, done := false } := by
  rcases drive_cases v nxt s with ⟨l, -, h, -⟩ | ⟨-, -, e⟩ | ⟨h, -⟩ | ⟨h, -⟩
  · simp [writeFails_of_infallible hf] at h
  · exact e
  · simp [ha] at h
  · simp [ha] at h

/-! ### The delay handshake -/

theorem answerDelay_cases (n : Nat) (s : State) :
    ((∃ m, s.inp.answer = some m ∧ n ≤ m) ∧ s.answerDelay n = { s with dly := .ack, done := false }) ∨
    ((∀ m, s.inp.answer = some m → m < n) ∧ s.answerDelay n = s.hold) := by
  unfold State.answerDelay
  split
  · rename_i m h
    split
    · rename_i hle
      exact .inl ⟨⟨m, h, hle⟩, rfl⟩
    · rename_i hle
      refine .inr ⟨fun m' h' => ?_, rfl⟩
      have : m = m' := by simpa [h] using h'
      omega
  · rename_i h
    exact .inr ⟨fun m' h' => by simp [h] at h', rfl⟩

/-- A step in a `WAIT` phase: issue, answer, held, or consume. -/
theorem waitDelay_cases (nxt : Phase) (s : State) :
    (s.dly = .none ∧ s.waitDelay nxt = s.issueDelay) ∨
    (∃ n, s.dly = .req n ∧ (∃ m, s.inp.answer = some m ∧ n ≤ m) ∧
      s.waitDelay nxt = { s with dly := .ack, done := false }) ∨
    (∃ n, s.dly = .req n ∧ (∀ m, s.inp.answer = some m → m < n) ∧ s.waitDelay nxt = s.hold) ∨
    (s.dly = .ack ∧ s.waitDelay nxt = s.consumeDelay nxt) := by
  unfold State.waitDelay
  cases h : s.dly with
  | none => simp
  | ack => simp
  | req n =>
    rcases answerDelay_cases n s with ⟨hm, e⟩ | ⟨hm, e⟩
    · exact .inr (.inl ⟨n, rfl, hm, e⟩)
    · exact .inr (.inr (.inl ⟨n, rfl, hm, e⟩))

/-! ### The frame of a transmit -/

theorem setRs_cases (f : Bool) (nxt : Phase) (s : State) :
    (f = false ∧ s.setRs f nxt = s.goto nxt) ∨
    (f = true ∧ s.writeFails .rs = true ∧ s.setRs f nxt = s.raiseLineSetFault .rs) ∨
    (f = true ∧ s.writeFails .rs = false ∧ s.setRs f nxt =
      { s with lines := { s.lines with rs := true }, trace := s.trace ++ [.w .rs true], ph := nxt, done := false }) := by
  cases f
  · exact .inl ⟨rfl, rfl⟩
  · rcases writeLine_cases .rs true nxt s with ⟨h, e⟩ | ⟨h, e⟩
    · exact .inr (.inl ⟨rfl, h, e⟩)
    · exact .inr (.inr ⟨rfl, h, e⟩)

theorem clearRs_cases (f : Bool) (s : State) :
    (f = false ∧ s.clearRs f = { s with ph := .idle, done := true }) ∨
    (f = true ∧ s.writeFails .rs = true ∧ s.clearRs f = s.raiseLineSetFault .rs) ∨
    (f = true ∧ s.writeFails .rs = false ∧ s.clearRs f =
      { s with lines := { s.lines with rs := false }, trace := s.trace ++ [.w .rs false], ph := .idle, done := true }) := by
  cases f
  · exact .inl ⟨rfl, rfl⟩
  · rcases writeLine_cases .rs false .idle s with ⟨h, e⟩ | ⟨h, e⟩
    · exact .inr (.inl ⟨rfl, h, by simp [State.clearRs, e, State.markDone]⟩)
    · exact .inr (.inr ⟨rfl, h, by simp [State.clearRs, e, State.markDone]⟩)

end Sys2Proof.Machine
end

