-- ==== Sys2Proof/Laws/PerInstr.lean ====
section
/-! SUPPORT. A statement about every instruction as syntax, one lemma per constructor: its request word has its
`is_data` in bit 8 and its byte in bits 7:0 (30_encoding.md R56, R64). -/

namespace Sys2Proof.Laws.ReqBits

open Sys2Proof

/-- Field `F` of the request word is `is_data`, and bit `k` of field `B` is bit `k` of the byte. -/
def Statement (i : Instr) : Prop :=
  (encode i).getLsbD 8 = i.isData ∧ ∀ k, k < 8 → (encode i).getLsbD k = i.byte.getLsbD k

theorem bits_of_reqWord (f : Bool) (b : Byte) :
    (reqWord f b).getLsbD 8 = f ∧ ∀ k, k < 8 → (reqWord f b).getLsbD k = b.getLsbD k := by
  refine ⟨reqFlag_reqWord f b, fun k hk => ?_⟩
  show (BitVec.ofBool f ++ b : BitVec (1 + 8)).getLsbD k = b.getLsbD k
  rw [BitVec.getLsbD_append, if_pos hk]

theorem wrc8 (b : Byte) : Statement (.wrc8 b) := bits_of_reqWord false b
theorem wrd8 (b : Byte) : Statement (.wrd8 b) := bits_of_reqWord true b
theorem wrc4 (b : Byte) : Statement (.wrc4 b) := bits_of_reqWord false b
theorem wrd4 (b : Byte) : Statement (.wrd4 b) := bits_of_reqWord true b

end Sys2Proof.Laws.ReqBits
end

