-- ==== Sys2Proof/Laws/Step.lean ====
section
/-! SUPPORT. What a step of an instruction, and a step of the machine, can do: one inversion lemma each. -/

namespace Sys2Proof.Machine

variable {s t : State}

/-- The value a `DRIVE` phase drives for an instruction: the byte, its upper or its lower nibble. -/
def driveValue (i : Instr) : Phase → DataWord
  | .driveHi => .n (upperNibble i.byte)
  | .driveLo => .n (lowerNibble i.byte)
  | _ => .d i.byte

theorem driveValue_variant {i : Instr} {p : Phase} (hp : p.ofVariant i.busWidth = true) (hd : p.isDrive = true) :
    (driveValue i p).variant = i.busWidth := by
  cases p <;> simp_all [Phase.isDrive, Phase.ofVariant, driveValue]

/-- The meaning of an instruction of the instance's variant, as one sequencer with the phases of both variants. -/
theorem exec_eq (i : Instr) (hv : s.params.busWidth = i.busWidth) (hp : s.ph.ofVariant i.busWidth = true) :
    exec i s =
      if s.ph = .idle then .next (s.accept i.isData i.byte)
      else if s.ph = .rsSet then .next (s.setRs i.isData (s.ph.after i.busWidth))
      else if s.ph.isDrive then .next (s.drive (driveValue i s.ph) (s.ph.after i.busWidth))
      else if s.ph.isEnHi then .next (s.writeLine .en true (s.ph.after i.busWidth))
      else if s.ph.isWait then .next (s.waitDelay (s.ph.after i.busWidth))
      else if s.ph.isEnLo then .next (s.writeLine .en false (s.ph.after i.busWidth))
      else if s.ph = .rsClr then .next (s.clearRs i.isData)
      else s.rest := by
  cases i <;> simp only [Instr.busWidth] at hv hp <;> cases h : s.ph <;>
    simp_all [exec, execWrc8, execWrd8, execWrc4, execWrd4, seq8, seq4, Phase.isDrive, Phase.isEnHi, Phase.isWait,
      Phase.isEnLo, Phase.after, Phase.ofVariant, driveValue, Instr.isData, Instr.byte, Instr.busWidth, State.rest]

theorem exec_otherVariant (i : Instr) (hv : s.params.busWidth ≠ i.busWidth) : exec i s = .refused .otherVariant := by
  cases i <;> simp_all [exec, execWrc8, execWrd8, execWrc4, execWrd4, seq8, seq4, Instr.busWidth]

theorem exec_foreignPhase (i : Instr) (hv : s.params.busWidth = i.busWidth) (hp : s.ph.ofVariant i.busWidth = false) :
    exec i s = .refused .foreignPhase := by
  cases i <;> simp only [Instr.busWidth] at hv hp <;> cases h : s.ph <;>
    simp_all [exec, execWrc8, execWrd8, execWrc4, execWrd4, seq8, seq4, Phase.ofVariant]

/-- Everything a step of an instruction can do: the row of its phase. -/
theorem exec_cases {i : Instr} (h : exec i s = .next t) :
    s.params.busWidth = i.busWidth ∧ s.ph.ofVariant i.busWidth = true ∧
    ((s.ph = .idle ∧ t = s.accept i.isData i.byte) ∨
     (s.ph = .rsSet ∧ t = s.setRs i.isData (s.ph.after i.busWidth)) ∨
     (s.ph.isDrive = true ∧ t = s.drive (driveValue i s.ph) (s.ph.after i.busWidth)) ∨
     (s.ph.isEnHi = true ∧ t = s.writeLine .en true (s.ph.after i.busWidth)) ∨
     (s.ph.isWait = true ∧ t = s.waitDelay (s.ph.after i.busWidth)) ∨
     (s.ph.isEnLo = true ∧ t = s.writeLine .en false (s.ph.after i.busWidth)) ∨
     (s.ph = .rsClr ∧ t = s.clearRs i.isData) ∨
     (s.ph.isFaulted = true ∧ s.world ≠ [] ∧ t = s.hold)) := by
  by_cases hv : s.params.busWidth = i.busWidth
  · cases hp : s.ph.ofVariant i.busWidth
    · simp [exec_foreignPhase i hv hp] at h
    · refine ⟨hv, rfl, ?_⟩
      rw [exec_eq i hv hp] at h
      cases hph : s.ph <;>
        simp_all [Phase.isDrive, Phase.isEnHi, Phase.isWait, Phase.isEnLo, Phase.isFaulted, State.rest,
          dead_eq_next_iff]
  · simp [exec_otherVariant i hv] at h

/-- The request word a step works on, in each phase. -/
theorem fetch_cases (s : State) :
    (s.ph = .idle ∧ s.inp.reqValid = true ∧ s.fetch = some s.inp.reqWord) ∨
    (s.ph = .idle ∧ s.inp.reqValid = false ∧ s.fetch = none) ∨
    (s.ph.isFaulted = true ∧ s.fetch = none) ∨
    (s.busy = true ∧ s.fetch = some (reqWord s.isData s.byte)) := by
  cases h : s.ph <;> cases hv : s.inp.reqValid <;> simp [State.fetch, State.busy, Phase.isFaulted, h, hv]

theorem rest_eq_next_iff :
    s.rest = .next t ↔ (s.ph.isFaulted = true → s.world ≠ []) ∧ t = s.hold := by
  cases h : s.ph <;> simp [State.rest, h, Phase.isFaulted, dead_eq_next_iff] <;>
    exact eq_comm

theorem step_of_rst (h : s.inp.rst = true) : step s = .next s.applyReset.advance := by
  unfold step
  rw [if_pos h]

theorem step_of_fetch {w : Req9} (h : s.inp.rst = false) (hf : s.fetch = some w) :
    step s = advanceOutcome (exec (decode s.params.busWidth w) s) := by
  unfold step
  rw [if_neg (by simp [h]), hf]

theorem step_of_noFetch (h : s.inp.rst = false) (hf : s.fetch = none) : step s = advanceOutcome s.rest := by
  unfold step
  rw [if_neg (by simp [h]), hf]

/-- Everything a step of the machine can do: reset; the step of an instruction, the one presented or the one latched;
or nothing. -/
theorem step_cases (h : step s = .next t) :
    (s.inp.rst = true ∧ t = s.applyReset.advance) ∨
    (s.inp.rst = false ∧ s.ph = .idle ∧ s.inp.reqValid = true ∧
      ∃ u, exec (decode s.params.busWidth s.inp.reqWord) s = .next u ∧ t = u.advance) ∨
    (s.inp.rst = false ∧ s.busy = true ∧
      ∃ u, exec (decode s.params.busWidth (reqWord s.isData s.byte)) s = .next u ∧ t = u.advance) ∨
    (s.inp.rst = false ∧ s.ph = .idle ∧ s.inp.reqValid = false ∧ t = s.hold.advance) ∨
    (s.inp.rst = false ∧ s.ph.isFaulted = true ∧ s.world ≠ [] ∧ t = s.hold.advance) := by
  unfold step at h
  cases hr : s.inp.rst
  · simp only [hr, Bool.false_eq_true, if_false] at h
    rcases fetch_cases s with ⟨hp, hv, hf⟩ | ⟨hp, hv, hf⟩ | ⟨hp, hf⟩ | ⟨hb, hf⟩ <;> rw [hf] at h <;>
      obtain ⟨u, hu, rfl⟩ := advanceOutcome_eq_next h
    · exact .inr (.inl ⟨rfl, hp, hv, u, hu, rfl⟩)
    · obtain ⟨-, rfl⟩ := rest_eq_next_iff.1 hu
      exact .inr (.inr (.inr (.inl ⟨rfl, hp, hv, rfl⟩)))
    · obtain ⟨hw, rfl⟩ := rest_eq_next_iff.1 hu
      exact .inr (.inr (.inr (.inr ⟨rfl, hp, hw hp, rfl⟩)))
    · exact .inr (.inr (.inl ⟨rfl, hb, u, hu, rfl⟩))
  · simp only [hr, if_true, Host.Outcome.next.injEq] at h
    exact .inl ⟨rfl, h.symm⟩

@[simp] theorem core_run_zero (s : State) : Sys2Proof.core.run 0 s = .next s := rfl

theorem core_run_succ (n : Nat) (s : State) : Sys2Proof.core.run (n + 1) s =
    match step s with
    | .next s' => Sys2Proof.core.run n s'
    | .fault r => .fault r
    | .refused r => .refused r := by
  refine (Host.Core.run.eq_2 Sys2Proof.core s n).trans ?_
  have e : step s = Sys2Proof.core.step s := rfl
  rw [e]
  cases Sys2Proof.core.step s <;> rfl

theorem core_run_of_next {s u : State} (h : step s = .next u) (n : Nat) :
    Sys2Proof.core.run (n + 1) s = Sys2Proof.core.run n u := by
  rw [core_run_succ, h]

/-- A property that every step keeps is kept by any number of steps. -/
theorem run_invariant {P : State → Prop} (hstep : ∀ s s', P s → step s = .next s' → P s') :
    ∀ (n : Nat) (s s' : State), P s → Sys2Proof.core.run n s = .next s' → P s'
  | 0, s, s', hs, h => by
    rw [core_run_zero] at h
    cases h
    exact hs
  | n + 1, s, s', hs, h => by
    rw [core_run_succ] at h
    cases hu : step s with
    | next u => exact run_invariant hstep n u s' (hstep s u hs hu) (by simpa [hu] using h)
    | fault r => simp [hu] at h
    | refused r => simp [hu] at h

/-- An invariant that holds in every constructed instance and that every step keeps holds in every reachable state. -/
theorem reachable_invariant {P : State → Prop} {p : Params}
    (hinit : ∀ world, P { State.resetWith p with world := world }) (hstep : ∀ s s', P s → step s = .next s' → P s')
    {s : State} (h : Reachable p s) : P s := by
  obtain ⟨n, world, h⟩ := h
  exact run_invariant hstep n _ s (hinit world) h

end Sys2Proof.Machine
end

