-- ==== Sys2Proof/Laws/Safety.lean ====
section
/-! SUPPORT. Laws of the mask of written data lines, of the invariant as a list of its parts, and of runs in two
stretches. -/

namespace Sys2Proof.Machine

open Sys2Proof

/-! ### The mask of written data lines -/

/-- With two lines still to write, there is another one than any given one. -/
theorem exists_undriven_ne {v : DataWord} {s : State} (j : Nat) (h : 2 ≤ (s.undriven v).length) :
    ∃ k, k ∈ s.undriven v ∧ k ≠ j := by
  by_contra hc
  push Not at hc
  have hnd : (s.undriven v).Nodup := List.Nodup.filter _ List.nodup_range
  match hu : s.undriven v with
  | [] => simp [hu] at h
  | [_] => simp [hu] at h
  | a :: b :: _ =>
    rw [hu] at hnd hc
    have h1 := hc a (by simp)
    have h2 := hc b (by simp)
    subst h1
    simp_all

/-- With one line still to write, every other one is written. -/
theorem driven_of_undriven_length_one {v : DataWord} {s : State} {j : Nat} (hj : j ∈ s.undriven v)
    (h : (s.undriven v).length = 1) {k : Nat} (hk : k < v.variant.nData) (hkj : k ≠ j) :
    s.driven.getLsbD k = true := by
  by_contra hc
  have hmem : k ∈ s.undriven v := (mem_undriven _ _ _).2 ⟨hk, by simpa using hc⟩
  obtain ⟨a, ha⟩ := List.length_eq_one_iff.1 h
  simp_all

theorem undriven_of_zero {s : State} (v : DataWord) (h : s.driven = 0) :
    s.undriven v = List.range v.variant.nData := by
  simp [State.undriven, h]

theorem drivenHold_iff (s : State) (v : DataWord) :
    s.drivenHold v = true ↔
      (∀ k, k < v.variant.nData → s.driven.getLsbD k = true → s.lines.data.bit k = v.bit k) ∧
      (∃ k, k ∈ s.undriven v) ∧ (s.params.dataAtomic = true → s.driven = 0) := by
  unfold State.drivenHold
  simp only [Bool.and_eq_true, List.all_eq_true, List.mem_range, Bool.or_eq_true, Bool.not_eq_true', beq_iff_eq,
    List.isEmpty_eq_false_iff_exists_mem, and_assoc]
  refine and_congr (forall_congr' fun k => imp_congr_right fun _ => ?_) (and_congr Iff.rfl ?_)
  · cases s.driven.getLsbD k <;> simp
  · cases s.params.dataAtomic <;> simp

theorem drivenHold_of_zero {s : State} (v : DataWord) (h : s.driven = 0) : s.drivenHold v = true := by
  refine (drivenHold_iff s v).2 ⟨fun k _ hk => by simp [h] at hk, ⟨0, ?_⟩, fun _ => h⟩
  rw [undriven_of_zero v h]
  cases v <;> simp [DataWord.variant, BusWidth.nData]

theorem drivenOk_of_zero {s : State} (h : s.driven = 0) : s.drivenOk = true := by
  unfold State.drivenOk
  split <;> first | exact drivenHold_of_zero _ h | simp [h]

/-- Outside the `DRIVE` phases the mask is empty. -/
theorem driven_eq_zero {s : State} (h : s.drivenOk = true) (hp : s.ph.isDrive = false) : s.driven = 0 := by
  unfold State.drivenOk at h
  split at h <;> simp_all [Phase.isDrive]

/-! ### The invariant -/

/-- The invariant as the conjunction of its parts. -/
theorem inv_iff (s : State) :
    s.inv = true ↔
      restsLow s.params = true ∧ s.bankOk = true ∧ s.phaseOk = true ∧ s.enOk = true ∧ s.rsOk = true ∧
      s.dataOk = true ∧ s.delayOk = true ∧ s.faultOk = true ∧ s.drivenOk = true := by
  simp only [State.inv, Bool.and_eq_true, and_assoc]

@[simp] theorem inv_advance (s : State) : s.advance.inv = s.inv := rfl

/-- What a `DRIVE` phase drives is what the next phase holds. -/
theorem dataHeld_after_drive (i : Instr) {p : Phase} (hd : p.isDrive = true) (hp : p.ofVariant i.busWidth = true) :
    (p.after i.busWidth).dataHeld i.busWidth i.byte = some (driveValue i p) := by
  cases p <;> simp_all [Phase.isDrive, Phase.after, Phase.dataHeld, driveValue]

/-- No delay is pending outside the `WAIT` phases. -/
theorem dly_eq_none {s : State} (h : s.delayOk = true) (hw : s.ph.isWait = false) : s.dly = .none := by
  cases hd : s.dly <;> simp_all [State.delayOk]

/-- The phase after one of the variant is one of the variant. -/
theorem ofVariant_after {bw : BusWidth} {p : Phase} (h : p.ofVariant bw = true) : (p.after bw).ofVariant bw = true := by
  cases p <;> cases bw <;> simp_all [Phase.ofVariant, Phase.after]

/-! ### Runs in two stretches -/

theorem run_add (n : Nat) : ∀ (m : Nat) (s u : State), Sys2Proof.core.run m s = .next u →
    Sys2Proof.core.run (m + n) s = Sys2Proof.core.run n u
  | 0, s, u, h => by
    rw [core_run_zero] at h
    cases h
    rw [Nat.zero_add]
  | m + 1, s, u, h => by
    rw [core_run_succ] at h
    rw [show m + 1 + n = (m + n) + 1 by omega, core_run_succ]
    cases hs : step s with
    | next v => rw [hs] at h; exact run_add n m v u h
    | fault r => simp [hs] at h
    | refused r => simp [hs] at h

end Sys2Proof.Machine
end

