-- ==== Sys2Proof/Tests/Slice0.lean ====
section
/-! SUPPORT. Tests: the checks of WellFormed, decoding of words written out from the encoding, single steps against the
vectors of spec/95_test_vectors.md, and a witness for the hypotheses of each statement. -/

namespace Sys2Proof.Tests

open Sys2Proof Sys2Proof.Machine

/-! ### Helpers -/

/-- The next state, if there is one. -/
def nextOf : Host.Outcome State Fault Refusal → Option State
  | .next s => some s
  | .fault _ => none
  | .refused _ => none

/-- One field of the next state. -/
def after {α : Type} (o : Host.Outcome State Fault Refusal) (f : State → α) : Option α := (nextOf o).map f

/-- The refusal, if there is one. -/
def refusalOf : Host.Outcome State Fault Refusal → Option Refusal
  | .refused r => some r
  | .next _ => none
  | .fault _ => none

/-- Inputs that present a word. -/
def req (w : Req9) : Inputs := { Inputs.quiet with reqValid := true, reqWord := w }

/-- Inputs with an answer `m` milliseconds after the issue. -/
def ans (m : Nat) : Inputs := { Inputs.quiet with answer := some m }

/-- Inputs with failing lines. -/
def failing (ls : List Line) : Inputs := { Inputs.quiet with fails := ls }

/-- Inputs with `rst`. -/
def rst : Inputs := { Inputs.quiet with rst := true }

/-- A fallible instance. -/
def fallible (bw : BusWidth) : Params := { Params.standard bw with lineFallible := true }

/-- An instance that writes its data lines one at a time. -/
def lineByLine (bw : BusWidth) : Params := { Params.standard bw with dataAtomic := false }

/-- A constructed instance with given inputs to come. -/
def start (p : Params) (w : List Inputs) : State := { State.resetWith p with world := w }

/-- An instance busy with `(f, 0xA5)` in a phase, its lines at the levels of that phase. -/
def busyAt (p : Params) (f : Bool) (ph : Phase) (w : List Inputs) : State :=
  { start p w with
    byte := 0xA5
    isData := f
    ph := ph
    lines :=
      { rs := ph.rsHeld && f
        en := ph.enHigh
        data := (ph.dataHeld p.busWidth 0xA5).getD (dataOfByte p.busWidth 0) } }

/-! ### Well-formedness (30_encoding.md R59, R64) -/

theorem test_wellFormed_refuses_other_variant : (Instr.wrc4 0x28).wellFormed .eight = false := by decide
theorem test_wellFormed_accepts_own_variant : (Instr.wrd8 0xFF).wellFormed .eight = true := by decide
theorem test_program_of_mixed_variants_is_refused :
    Program.wellFormed .four [.wrc4 0x28, .wrd8 0x41] = false := by decide
theorem test_program_P2_is_wellFormed :
    Program.wellFormed .four [.wrc4 0x28, .wrd4 0x41, .wrc4 0x33] = true := by decide

/-! ### Decoding and encoding: words written out bit by bit, bit 8 = F, bits 7:0 = B (30_encoding.md R56) -/

theorem test_decode_wrc8 : decode .eight 0b0_0011_1000#9 = .wrc8 0x38 := by decide
theorem test_decode_wrd8 : decode .eight 0b1_1010_0101#9 = .wrd8 0xA5 := by decide
theorem test_decode_wrc4 : decode .four 0b0_0010_1000#9 = .wrc4 0x28 := by decide
theorem test_decode_wrd4 : decode .four 0b1_0100_0001#9 = .wrd4 0x41 := by decide
theorem test_encode_wrd8 : encode (.wrd8 0x48) = 0b1_0100_1000#9 := by decide
theorem test_encode_wrc4 : encode (.wrc4 0x33) = 0b0_0011_0011#9 := by decide
theorem test_decodeNat_last_word : (decodeNat .eight 511).toOption = some (.wrd8 0xFF) := by decide
theorem test_decodeNat_past_last_word : (decodeNat .eight 512).toOption = none := by decide
theorem test_decodeTableWord : decodeTableWord 16 0x1A5 = some (.wrd8 0xA5) := by decide

/-! ### Bit and nibble selection (95_test_vectors.md 2.2) -/

theorem test_nibbles_0x10 : upperNibble 0x10 = 0b0001#4 ∧ lowerNibble 0x10 = 0b0000#4 := by decide
theorem test_data_lines_of_0xA5 :
    (List.range 8).map (DataWord.d 0xA5).bit = [true, false, true, false, false, true, false, true] := by decide

/-! ### Single steps of the 8-bit variant (95_test_vectors.md 2.5) -/

theorem test_first_step_accepts :
    after (step (State.reset.withFetchWord 16 0x1A5)) (fun t => (t.ph, t.byte, t.isData, t.trace, t.busy)) =
      some (.rsSet, 0xA5, true, [], true) := by decide
theorem test_wrd8_rsSet :
    after (step (busyAt (Params.standard .eight) true .rsSet [])) (fun t => (t.ph, t.lines.rs, t.trace)) =
      some (.drive, true, [.w .rs true]) := by decide
theorem test_wrc8_rsSet_is_silent :
    after (step (busyAt (Params.standard .eight) false .rsSet [])) (fun t => (t.ph, t.lines.rs, t.trace)) =
      some (.drive, false, []) := by decide
theorem test_wrc8_drive :
    after (step (busyAt (Params.standard .eight) false .drive [])) (fun t => (t.ph, t.lines.data, t.trace)) =
      some (.enHi, .d 0xA5, [.wd (.d 0xA5)]) := by decide
theorem test_wrd8_return :
    after (step (busyAt (Params.standard .eight) true .rsClr []))
        (fun t => (t.ph, t.lines.rs, t.lines.data, t.trace, t.done)) =
      some (.idle, false, .d 0xA5, [.w .rs false], true) := by decide

/-! ### Single steps of the 4-bit variant (95_test_vectors.md 2.6) -/

theorem test_wrc4_drives_the_upper_nibble_first :
    after (step (busyAt (Params.standard .four) false .driveHi [])) (fun t => (t.ph, t.lines.data)) =
      some (.enHi1, .n 0b1010#4) := by decide
theorem test_wrc4_drives_the_lower_nibble_second :
    after (step (busyAt (Params.standard .four) false .driveLo [])) (fun t => (t.ph, t.lines.data)) =
      some (.enHi2, .n 0b0101#4) := by decide
theorem test_wrd4_keeps_rs_between_the_pulses :
    after (step (busyAt (Params.standard .four) true .enLo1 [])) (fun t => (t.ph, t.lines.rs, t.lines.en, t.trace)) =
      some (.driveLo, true, false, [.w .en false]) := by decide
theorem test_wrd4_second_pulse_goes_to_rsClr :
    after (step (busyAt (Params.standard .four) true .enLo2 [])) (fun t => (t.ph, t.trace)) =
      some (.rsClr, [.w .en false]) := by decide

/-! ### Acceptance, delay, fault and reset (95_test_vectors.md 2.7 to 2.10) -/

theorem test_busy_accepts_nothing :
    after (step (busyAt (Params.standard .eight) true .rsClr [req 0x0C0])) (fun t => (t.ph, t.byte, t.isData)) =
      some (.idle, 0xA5, true) := by decide
theorem test_early_answer_holds :
    after (step { busyAt (Params.standard .eight) true .wait [ans 1] with dly := .req 2 }) (fun t => (t.ph, t.dly)) =
      some (.wait, .req 2) := by decide
theorem test_answer_after_exactly_2_ms :
    after (step { busyAt (Params.standard .eight) true .wait [ans 2] with dly := .req 2 }) (fun t => (t.ph, t.dly)) =
      some (.wait, .ack) := by decide
theorem test_fault_at_enLo :
    after (step (busyAt (fallible .eight) true .enLo [failing [.en]]))
        (fun t => (t.ph, t.lines.rs, t.lines.data, t.trace)) =
      some (.faulted .en, true, .d 0xA5, []) := by decide
theorem test_command_rsSet_cannot_fault :
    after (step (busyAt (fallible .eight) false .rsSet [failing [.rs]])) (fun t => t.ph) = some .drive := by decide
theorem test_reset_leaves_the_fault :
    after (step { busyAt (fallible .four) true (.faulted .en) [rst] with lines := ⟨true, true, .n 5⟩ })
        (fun t => (t.ph, t.lines.rs, t.lines.en, t.faultOut)) = some (.idle, false, false, false) := by decide
theorem test_four_wires_need_six_pins :
    after (construct 4 [0, 1, 2, 3, 4, 5] [9] (Params.standard .eight)) (fun t => t.params.busWidth) = some .four ∧
    refusalOf (construct 4 [0, 1, 2, 3, 4, 5, 6, 7] [] (Params.standard .four)) = some (.wrongLineCount 8) := by decide
theorem test_pulse_width_of_5_ms :
    after (step (busyAt { Params.standard .eight with tPulseMs := 5 } false .wait [])) (fun t => (t.dly, t.trace)) =
      some (.req 5, [.dly 5]) := by decide

/-! ### What an observer sees (95_test_vectors.md 2.3 row 3, 2.4 row 3) -/

theorem test_transitions_of_wrd8_0xA5 :
    transitions ⟨false, false, .d 0xFF⟩ (trace8 2 true 0xA5) =
      [(.rs, true), (.d 1, false), (.d 3, false), (.d 4, false), (.d 6, false), (.en, true), (.en, false),
        (.rs, false)] := by decide
theorem test_pulse_records_of_wrc4_0xA5 :
    pulseRecords ⟨false, false, .n 0xF⟩ (trace4 2 false 0xA5) = [(false, .n 0xA), (false, .n 0x5)] := by decide

/-! ### Witnesses: states and operands that meet the hypotheses of each statement -/

theorem witness_DecoderIsTotalOnRequestWords : 511 < 512 ∧ 512 ≤ 512 := by decide
theorem witness_NibblesOfAByte : 3 < 4 := by decide

theorem witness_StepRunsThePresentedRequest :
    let s := start (Params.standard .eight) [req 0x1A5]
    s.inp.rst = false ∧ s.ph = .idle ∧ s.inp.reqValid = true ∧
      decode s.params.busWidth s.inp.reqWord = .wrd8 0xA5 := by decide

theorem witness_StepRunsTheLatchedRequest :
    let s := busyAt (Params.standard .four) false .rsClr []
    s.inp.rst = false ∧ s.busy = true ∧ decode s.params.busWidth (reqWord s.isData s.byte) = .wrc4 0xA5 := by decide

theorem witness_IdleWithoutRequestStaysIdle :
    State.reset.inp.rst = false ∧ State.reset.ph = .idle ∧ State.reset.inp.reqValid = false := by decide

theorem witness_RequestInputsHaveNoEffectUnlessIdle :
    (busyAt (Params.standard .eight) true .rsClr []).ph ≠ .idle ∧
    (busyAt (fallible .four) true (.faulted .rs) []).ph ≠ .idle := by decide

theorem witness_EightBitSequencerTable :
    ∀ ph ∈ [Phase.idle, .rsSet, .drive, .enHi, .wait, .enLo, .rsClr],
      let s := busyAt (fallible .eight) true ph []
      s.params.busWidth = .eight ∧ s.ph = ph ∧ s.writeFails .rs = false ∧ s.writeFails .en = false ∧
        s.params.dataAtomic = true ∧ ∀ k, s.writeFails (.d k) = false := by decide

theorem witness_EightBitSequencerTable_lineByLine :
    let s := busyAt { fallible .eight with dataAtomic := false } true .rsClr [failing [.en]]
    s.params.busWidth = .eight ∧ s.ph = .rsClr ∧ s.writeFails .rs = false := by decide

theorem witness_EightBitSequencerTable_wait :
    let s (d : Delay) (w : List Inputs) : State := { busyAt (Params.standard .eight) true .wait w with dly := d }
    (s .none []).dly = .none ∧ (s .ack []).dly = .ack ∧ (s (.req 2) []).dly = .req 2 ∧
      (s (.req 2) [ans 2]).inp.answer = some 2 ∧ (s (.req 2) [ans 1]).inp.answer = some 1 ∧
      (s (.req 2) []).inp.answer = none := by decide

theorem witness_FourBitSequencerTable :
    ∀ ph ∈ [Phase.idle, .rsSet, .driveHi, .enHi1, .wait1, .enLo1, .driveLo, .enHi2, .wait2, .enLo2, .rsClr],
      let s := busyAt (fallible .four) true ph []
      s.params.busWidth = .four ∧ s.ph = ph ∧ s.writeFails .rs = false ∧ s.writeFails .en = false ∧
        s.params.dataAtomic = true ∧ ∀ k, s.writeFails (.n k) = false := by decide

theorem witness_FourBitSequencerTable_lineByLine :
    let s := busyAt { fallible .four with dataAtomic := false } true .enLo2 [failing [.rs]]
    s.params.busWidth = .four ∧ s.ph = .enLo2 ∧ s.writeFails .en = false := by decide

theorem witness_FourBitSequencerTable_wait :
    let s (d : Delay) (w : List Inputs) : State := { busyAt (Params.standard .four) true .wait2 w with dly := d }
    (s .none []).dly = .none ∧ (s .ack []).dly = .ack ∧ (s (.req 2) []).dly = .req 2 ∧
      (s (.req 2) [ans 2]).inp.answer = some 2 ∧ (s (.req 2) [ans 1]).inp.answer = some 1 ∧
      (s (.req 2) []).inp.answer = none := by decide

theorem witness_LineByLineDriveWritesEveryLineOnce_drive :
    let i := Instr.wrd8 0xA5
    let s := busyAt (lineByLine .eight) true .drive []
    s.params.busWidth = i.busWidth ∧ s.params.lineFallible = false ∧ s.params.dataAtomic = false ∧
      s.lines.data.variant = i.busWidth ∧ s.driven = 0 ∧ s.ph = .drive ∧
      (DataWord.d i.byte).variant = i.busWidth := by decide

theorem witness_LineByLineDriveWritesEveryLineOnce_nibbles :
    ∀ x ∈ [(Phase.driveHi, upperNibble 0xA5), (.driveLo, lowerNibble 0xA5)],
      let i := Instr.wrc4 0xA5
      let s := busyAt { fallible .four with dataAtomic := false } false x.1 [failing [.rs, .en]]
      s.params.busWidth = i.busWidth ∧ s.params.dataAtomic = false ∧
        (∀ t ∈ s.world.take i.busWidth.nData, ∀ l ∈ (DataWord.n x.2).lines, l ∉ t.fails) ∧
        s.lines.data.variant = i.busWidth ∧ s.driven = 0 ∧ s.ph = x.1 ∧
        (DataWord.n x.2).variant = i.busWidth := by decide

theorem witness_EightBitTransmitRunsToTheReturn :
    let before := List.replicate 4 (req 0x1FF)
    let late := List.replicate 3 Inputs.quiet
    let s := start (Params.standard .eight) (req 0x1A5 :: before ++ ans 50 :: late ++ [])
    s.params.busWidth = .eight ∧ s.params.lineFallible = false ∧ s.params.dataAtomic = true ∧ s.ph = .idle ∧
      s.lines.en = false ∧ s.lines.rs = false ∧ s.dly = .none ∧ (req 0x1A5).presents (reqWord true 0xA5) = true ∧
      4 ≤ before.length ∧ (∀ t ∈ before, t.noAnswer = true) ∧ (ans 50).answers s.params.tPulseMs = true ∧
      late.length = 3 ∧ (∀ t ∈ late, t.rst = false) := by decide

theorem witness_FourBitTransmitRunsToTheReturn :
    let before := List.replicate 4 (req 0x1FF)
    let between := List.replicate 5 Inputs.quiet
    let late := List.replicate 3 Inputs.quiet
    let s := start (Params.standard .four) (req 0x0A5 :: before ++ ans 2 :: between ++ ans 3 :: late ++ [])
    s.params.busWidth = .four ∧ s.params.lineFallible = false ∧ s.params.dataAtomic = true ∧ s.ph = .idle ∧
      s.lines.en = false ∧ s.lines.rs = false ∧ s.dly = .none ∧ (req 0x0A5).presents (reqWord false 0xA5) = true ∧
      4 ≤ before.length ∧ (∀ t ∈ before, t.noAnswer = true) ∧ (ans 2).answers s.params.tPulseMs = true ∧
      5 ≤ between.length ∧ (∀ t ∈ between, t.noAnswer = true) ∧ (ans 3).answers s.params.tPulseMs = true ∧
      late.length = 3 ∧ (∀ t ∈ late, t.rst = false) := by decide

theorem witness_RunOfRequestsConcatenatesTheirTraces :
    let s := start (Params.standard .four) (runInputs (Params.standard .four) [0x028, 0x141])
    s.params.lineFallible = false ∧ s.params.dataAtomic = true ∧ s.ph = .idle ∧ s.lines.en = false ∧
      s.lines.rs = false ∧ s.dly = .none ∧ s.world = runInputs s.params [0x028, 0x141] := by decide

theorem witness_TransmitInProgressFollowsItsTrace_goes_on :
    let s := busyAt (Params.standard .eight) true .rsSet []
    s.params.lineFallible = false ∧ s.params.dataAtomic = true ∧ s.phaseOk = true ∧ s.delayOk = true ∧
      s.inp.rst = false ∧ s.busy = true ∧ s.trace = [] ++ s.soFar ∧ after (step s) State.busy = some true := by decide

theorem witness_TransmitInProgressFollowsItsTrace_returns :
    let s := { busyAt (Params.standard .four) false .rsClr [] with
      trace := txnTrace 2 (.n 0xA#4) ++ txnTrace 2 (.n 0x5#4) }
    s.params.lineFallible = false ∧ s.params.dataAtomic = true ∧ s.phaseOk = true ∧ s.delayOk = true ∧
      s.inp.rst = false ∧ s.busy = true ∧ s.trace = [] ++ s.soFar ∧ after (step s) State.ph = some .idle := by decide

theorem witness_EveryRunTracesItsAcceptedRequests :
    let s := start (Params.standard .eight) (transmitInputs (Params.standard .eight) 0x1A5)
    s.params.lineFallible = false ∧ s.params.dataAtomic = true ∧ s.ph = .idle ∧ s.lines.en = false ∧
      s.lines.rs = false ∧ s.dly = .none ∧ (∀ u ∈ s.world, u.rst = false) ∧
      ∃ t, Sys2Proof.core.run 9 s = .next t ∧ t.ph = .idle :=
  ⟨rfl, rfl, rfl, rfl, rfl, rfl, by decide, _, rfl, rfl⟩

theorem witness_DisplayReceivesTheAcceptedRequestsInOrder :
    let s := start (Params.standard .eight) (transmitInputs (Params.standard .eight) 0x1A5)
    s.inv = true ∧ s.params.lineFallible = false ∧ s.ph = .idle ∧ (∀ u ∈ s.world, u.rst = false) ∧
      ∃ t, Sys2Proof.core.run 9 s = .next t ∧ t.ph = .idle :=
  ⟨by decide, rfl, rfl, by decide, _, rfl, rfl⟩

theorem witness_InstanceInvariantHoldsAtReset : restsLow (Params.standard .four) = true := by decide

theorem witness_StepKeepsTheInstanceInvariant :
    (busyAt (lineByLine .four) true .driveLo []).inv = true ∧
    (nextOf (step (busyAt (lineByLine .four) true .driveLo []))).isSome = true ∧
    (busyAt (fallible .eight) true .enLo [failing [.en]]).inv = true ∧
    (nextOf (step (busyAt (fallible .eight) true .enLo [failing [.en]]))).isSome = true := by decide

theorem witness_EnableAndRsAreLowWhenIdle :
    restsLow (Params.standard .eight) = true ∧
    Reachable (Params.standard .eight) (start (Params.standard .eight) []) ∧
    (start (Params.standard .eight) []).ph = .idle := ⟨by decide, ⟨0, [], rfl⟩, rfl⟩

theorem witness_LinesAreStableWhileEnableIsHigh :
    ∀ ph ∈ [Phase.wait, .enLo],
      let s := busyAt (Params.standard .eight) true ph []
      s.inv = true ∧ s.lines.en = true ∧ s.inp.rst = false ∧ (nextOf (step s)).isSome = true := by decide

theorem witness_LinesAreStableWhileEnableIsHigh_faulted :
    let s := { start (fallible .four) [Inputs.quiet] with ph := .faulted .rs, lines := ⟨true, true, .n 0⟩ }
    s.inv = true ∧ s.lines.en = true ∧ s.inp.rst = false ∧ (nextOf (step s)).isSome = true := by decide

theorem witness_RsIsTheFlagThroughoutATransmit :
    ∃ s, restsLow (Params.standard .eight) = true ∧ Reachable (Params.standard .eight) s ∧ s.ph.rsHeld = true :=
  ⟨_, by decide, ⟨2, [req 0x1A5], rfl⟩, rfl⟩

theorem witness_DataLinesHoldTheTransactionsValue :
    ∃ s, restsLow (Params.standard .four) = true ∧ Reachable (Params.standard .four) s ∧
      s.ph.dataHeld (Params.standard .four).busWidth s.byte = some (.n 0xA) :=
  ⟨_, by decide, ⟨3, [req 0x1A5], rfl⟩, by decide⟩

theorem witness_FourBitPulsesStayPaired :
    let s := busyAt (Params.standard .four) true .enHi1 []
    s.params.busWidth = .four ∧ s.phaseOk = true ∧ s.pulsesPaired = true ∧
      after (step s) State.ph = some .wait1 := by decide

theorem witness_FourBitPulseCountIsEvenWhenIdle :
    (Params.standard .four).busWidth = .four ∧ Reachable (Params.standard .four) (start (Params.standard .four) []) ∧
    (start (Params.standard .four) []).ph = .idle := ⟨rfl, ⟨0, [], rfl⟩, rfl⟩

theorem witness_StepKeepsTheConstructionParameters : (nextOf (step State.reset)).isSome = true := by decide

theorem witness_PhasesAdvanceInAStraightLine :
    let p := Params.standard .eight
    ∀ x ∈ [(start p [], Phase.idle), (start p [req 0x0FF], .rsSet), (busyAt p true .wait [], .wait),
        ({ busyAt p true .wait [] with dly := .ack }, .enLo), (busyAt p true .rsClr [], .idle),
        (busyAt (fallible .eight) true .rsClr [failing [.rs]], .faulted .rs)],
      x.1.inp.rst = false ∧ x.1.ph.isFaulted = false ∧ after (step x.1) State.ph = some x.2 := by decide

theorem witness_DoneMarksExactlyTheReturn :
    let p := Params.standard .eight
    (busyAt p true .rsClr []).busy = true ∧ after (step (busyAt p true .rsClr [])) State.busy = some false ∧
    after (step (busyAt p true .rsClr [])) (fun t => t.ph.isFaulted) = some false ∧
    (busyAt p true .rsClr []).inp.rst = false ∧
    (start p [req 0x000]).busy = false ∧ after (step (start p [req 0x000])) State.busy = some true := by decide

theorem witness_InstructionsKeepLatchesAndParameters :
    let s := busyAt (Params.standard .eight) true .enHi []
    (nextOf (exec (.wrd8 0xA5) s)).isSome = true ∧ s.ph ≠ .idle ∧ s.ph.isWait = false := by decide

theorem witness_InstructionsWriteOnlyTheirLines :
    let s := busyAt (Params.standard .four) false .driveHi []
    s.bankOk = true ∧ (nextOf (exec (.wrc4 0xA5) s)).isSome = true ∧
      mayWrite (.wrc4 0xA5) s.ph .rs = false ∧ mayWrite (.wrc4 0xA5) s.ph .en = false ∧
      mayWrite (.wrc4 0xA5) s.ph (.d 7) = false ∧ mayWrite (.wrc4 0xA5) s.ph (.n 3) = true := by decide

theorem witness_CommandsMakeNoRsEvent :
    (Instr.wrc8 0xA5).isData = false ∧
    (nextOf (exec (.wrc8 0xA5) (busyAt (Params.standard .eight) false .rsClr []))).isSome = true := by decide

theorem witness_TraceIsTheWholeSideEffect :
    let s (l : List Line) := busyAt (fallible .eight) true .drive [failing l]
    after (exec (.wrd8 0xA5) (s [])) (fun t => t.ph.isFaulted) = some false ∧
    after (exec (.wrd8 0xA5) (s [.d 7])) (fun t => t.ph.isFaulted) = some true := by decide

theorem witness_LineLevelsAreNeverRead :
    (nextOf (exec (.wrd4 0xA5) (busyAt (lineByLine .four) true .driveLo []))).isSome = true := by decide

theorem witness_NoByteValueIsSpecial :
    let s := busyAt (Params.standard .eight) true .drive []
    s.params.lineFallible = false ∧ (nextOf (exec (decode .eight (reqWord true 0xA5)) s)).isSome = true := by decide

theorem witness_ResetWinsInEveryState :
    (busyAt (Params.standard .eight) true .wait [rst]).inp.rst = true ∧
    (busyAt { fallible .four with dbReset := some 0x3 } true (.faulted .en) [rst]).inp.rst = true ∧
    (busyAt { fallible .four with dbReset := some 0x3 } true (.faulted .en) [rst]).params.dbReset = some 0x3 := by
  decide

theorem witness_ConstructionRefusesOtherConfigurations :
    (5 ≠ 8 ∧ 5 ≠ 4) ∧ (9 ≠ 8 ∧ 9 ≠ 4) ∧
    (List.range 10).length = BusWidth.eight.nData + 2 ∧ (List.range 10).Nodup ∧ (∀ x ∈ List.range 10, x ∉ [10]) ∧
    (List.range 6).length = BusWidth.four.nData + 2 ∧ (List.range 6).Nodup ∧ (∀ x ∈ List.range 6, x ∉ [6]) ∧
    (List.range 7).length ≠ BusWidth.four.nData + 2 ∧ (List.range 9).length ≠ BusWidth.eight.nData + 2 ∧
    [0, 1, 2, 3, 4, 0].length = BusWidth.four.nData + 2 ∧ ¬ [0, 1, 2, 3, 4, 0].Nodup ∧
    (∃ x ∈ List.range 6, x ∈ [5, 9]) := by decide

theorem witness_UnansweredDelayHoldsTheSequencer :
    let s := { busyAt (Params.standard .eight) true .wait [req 0x0C0, req 0x001] with dly := .req 2 }
    s.inv = true ∧ s.heldByDelay = true ∧ (∀ t ∈ s.world.take 0, t.noAnswer = true) ∧
      (∀ t ∈ s.world.take 2, t.noAnswer = true) := by decide

theorem witness_FailedRsOrEnableWriteEntersTheFault_rs :
    ∀ ph ∈ [Phase.rsSet, .rsClr],
      let s := busyAt (fallible .eight) true ph [failing [.rs]]
      s.params.busWidth = (Instr.wrd8 0xA5).busWidth ∧ s.phaseOk = true ∧ s.params.lineFallible = true ∧
        Line.rs ∈ s.inp.fails ∧ mayWrite (.wrd8 0xA5) s.ph .rs = true := by decide

theorem witness_FailedRsOrEnableWriteEntersTheFault_en :
    ∀ ph ∈ [Phase.enHi1, .enLo1, .enHi2, .enLo2],
      let s := busyAt (fallible .four) false ph [failing [.en]]
      s.params.busWidth = (Instr.wrc4 0xA5).busWidth ∧ s.phaseOk = true ∧ s.params.lineFallible = true ∧
        Line.en ∈ s.inp.fails ∧ mayWrite (.wrc4 0xA5) s.ph .en = true := by decide

theorem witness_FailedDataWriteEntersTheFault_drive :
    let s := busyAt (fallible .eight) true .drive [failing [.d 7, .d 0]]
    s.params.busWidth = (Instr.wrd8 0xA5).busWidth ∧ s.params.lineFallible = true ∧ s.params.dataAtomic = true ∧
      s.ph = .drive ∧ (DataWord.d 0xA5).variant = (Instr.wrd8 0xA5).busWidth ∧
      7 < (Instr.wrd8 0xA5).busWidth.nData ∧ (DataWord.d 0xA5).line 7 ∈ s.inp.fails := by decide

theorem witness_FailedDataWriteEntersTheFault_nibbles :
    ∀ x ∈ [(Phase.driveHi, upperNibble 0xA5), (.driveLo, lowerNibble 0xA5)],
      let s := busyAt (fallible .four) false x.1 [failing [.n 3]]
      s.params.busWidth = (Instr.wrc4 0xA5).busWidth ∧ s.params.lineFallible = true ∧ s.params.dataAtomic = true ∧
        s.ph = x.1 ∧ (DataWord.n x.2).variant = (Instr.wrc4 0xA5).busWidth ∧
        3 < (Instr.wrc4 0xA5).busWidth.nData ∧ (DataWord.n x.2).line 3 ∈ s.inp.fails := by decide

theorem witness_LineByLineStepWritesOneLineOrFaultsAtIt :
    let i := Instr.wrd8 0xA5
    let s (fs : List Line) (m : BitVec 8) : State :=
      { busyAt { fallible .eight with dataAtomic := false } true .drive [failing fs] with driven := m }
    (∀ m ∈ [0x00#8, 0x3F#8], ∃ k, k < i.busWidth.nData ∧ (s [] m).driven.getLsbD k = false ∧
      ∃ k', k' < i.busWidth.nData ∧ k' ≠ k ∧ (s [] m).driven.getLsbD k' = false) ∧
    (∀ k, k < i.busWidth.nData → k ≠ 7 → (s [] 0x7F#8).driven.getLsbD k = true) ∧
    (s [] 0).params.busWidth = i.busWidth ∧ (s [] 0).params.dataAtomic = false ∧ (s [] 0).ph = .drive ∧
    (DataWord.d i.byte).variant = i.busWidth ∧
    (s [] 0).writeFails ((DataWord.d i.byte).line 7) = false ∧
    (s [.d 7] 0).writeFails ((DataWord.d i.byte).line 7) = true := by decide

theorem witness_FailedSingleDataWriteEntersTheFault :
    ∀ x ∈ [(Phase.driveHi, upperNibble 0xA5), (.driveLo, lowerNibble 0xA5)],
      let i := Instr.wrd4 0xA5
      let s : State := { busyAt { fallible .four with dataAtomic := false } true x.1 [failing [.n 2, .n 3]] with
        driven := 0b11#8 }
      s.params.busWidth = i.busWidth ∧ s.params.lineFallible = true ∧ s.params.dataAtomic = false ∧ s.ph = x.1 ∧
        (DataWord.n x.2).variant = i.busWidth ∧ (∃ k, k < i.busWidth.nData ∧ s.driven.getLsbD k = false) ∧
        (∀ k, k < i.busWidth.nData → s.driven.getLsbD k = false → (DataWord.n x.2).line k ∈ s.inp.fails) := by
  decide

theorem witness_FailedSingleDataWriteEntersTheFault_drive :
    let i := Instr.wrc8 0xA5
    let s := busyAt { fallible .eight with dataAtomic := false } false .drive
      [failing ((List.range 8).map (DataWord.d 0xA5).line)]
    s.params.busWidth = i.busWidth ∧ s.params.lineFallible = true ∧ s.params.dataAtomic = false ∧ s.ph = .drive ∧
      (DataWord.d i.byte).variant = i.busWidth ∧ (∃ k, k < i.busWidth.nData ∧ s.driven.getLsbD k = false) ∧
      (∀ k, k < i.busWidth.nData → s.driven.getLsbD k = false → (DataWord.d i.byte).line k ∈ s.inp.fails) := by
  decide

theorem witness_FaultsComeOnlyFromFailedWrites :
    let s := busyAt (fallible .eight) true .enLo [failing [.en]]
    after (exec (.wrd8 0xA5) s) State.ph = some (.faulted .en) ∧ s.ph ≠ .faulted .en := by decide

theorem witness_FaultEntryTouchesOnlyTheFailedLine :
    let s := busyAt (fallible .four) true .rsClr [failing [.rs]]
    after (exec (.wrd4 0xA5) s) State.ph = some (.faulted .rs) ∧ s.ph ≠ .faulted .rs := by decide

theorem witness_FaultedInstanceIsDead :
    let s := { start (fallible .eight) [req 0x001] with ph := .faulted .en }
    s.ph = .faulted .en ∧ (∀ t ∈ s.world, t.rst = false) ∧ 1 ≤ s.world.length ∧
      (State.inp { s with world := [rst] }).rst = true := by decide

theorem witness_FaultedInstanceWithoutInputsStops :
    let s := { start (fallible .four) [] with ph := .faulted .rs }
    s.ph = .faulted .rs ∧ s.world = [] := by decide

theorem witness_InfallibleLinesNeverFault :
    State.reset.inv = true ∧ State.reset.params.lineFallible = false := by decide

theorem witness_NoStepIsRefused : (start (fallible .four) [req 0x141]).inv = true := by decide

theorem witness_OtherVariantsInstructionsAreRefused :
    (Instr.wrc4 0x00).wellFormed State.reset.params.busWidth = false := by decide

end Sys2Proof.Tests
end

section
/-! SUPPORT. Proofs for 00_scope.md: the construction parameters are constants (O28), the trace is the whole side
effect (O34), no byte value is special (O36). -/

namespace Sys2Proof.Machine

variable {s t : State}

/-! ### What a step leaves alone -/

/-- `t` has the parameters, the request latches and the inputs of `s`. -/
structure KeepsRequest (s t : State) : Prop where
  params : t.params = s.params
  world : t.world = s.world
  byte : t.byte = s.byte
  isData : t.isData = s.isData

theorem hold_keepsRequest (s : State) : KeepsRequest s s.hold := ⟨rfl, rfl, rfl, rfl⟩

theorem writeLine_keepsRequest (l : Line) (v : Level) (nxt : Phase) (s : State) :
    KeepsRequest s (s.writeLine l v nxt) := by
  rcases writeLine_cases l v nxt s with ⟨-, e⟩ | ⟨-, e⟩ <;> rw [e] <;> exact ⟨rfl, rfl, rfl, rfl⟩

theorem drive_keepsRequest (v : DataWord) (nxt : Phase) (s : State) : KeepsRequest s (s.drive v nxt) := by
  rcases drive_cases v nxt s with ⟨_, -, -, e⟩ | ⟨-, -, e⟩ | ⟨-, -, e⟩ | ⟨-, _, -, -, -, _, _, -, e⟩ <;>
    rw [e] <;> exact ⟨rfl, rfl, rfl, rfl⟩

theorem waitDelay_keepsRequest (nxt : Phase) (s : State) : KeepsRequest s (s.waitDelay nxt) := by
  rcases waitDelay_cases nxt s with ⟨-, e⟩ | ⟨_, -, -, e⟩ | ⟨_, -, -, e⟩ | ⟨-, e⟩ <;>
    rw [e] <;> exact ⟨rfl, rfl, rfl, rfl⟩

theorem setRs_keepsRequest (f : Bool) (nxt : Phase) (s : State) : KeepsRequest s (s.setRs f nxt) := by
  rcases setRs_cases f nxt s with ⟨-, e⟩ | ⟨-, -, e⟩ | ⟨-, -, e⟩ <;> rw [e] <;> exact ⟨rfl, rfl, rfl, rfl⟩

theorem clearRs_keepsRequest (f : Bool) (s : State) : KeepsRequest s (s.clearRs f) := by
  rcases clearRs_cases f s with ⟨-, e⟩ | ⟨-, -, e⟩ | ⟨-, -, e⟩ <;> rw [e] <;> exact ⟨rfl, rfl, rfl, rfl⟩

/-- A step of an instruction is the acceptance, or leaves parameters, latches and inputs alone. -/
theorem exec_accepts_or_keepsRequest {i : Instr} (h : exec i s = .next t) :
    (s.ph = .idle ∧ t = s.accept i.isData i.byte) ∨ KeepsRequest s t := by
  obtain ⟨-, -, ha | ⟨-, rfl⟩ | ⟨-, rfl⟩ | ⟨-, rfl⟩ | ⟨-, rfl⟩ | ⟨-, rfl⟩ | ⟨-, rfl⟩ | ⟨-, -, rfl⟩⟩ := exec_cases h
  · exact .inl ha
  · exact .inr (setRs_keepsRequest _ _ s)
  · exact .inr (drive_keepsRequest _ _ s)
  · exact .inr (writeLine_keepsRequest _ _ _ s)
  · exact .inr (waitDelay_keepsRequest _ s)
  · exact .inr (writeLine_keepsRequest _ _ _ s)
  · exact .inr (clearRs_keepsRequest _ s)
  · exact .inr (hold_keepsRequest s)

theorem exec_params {i : Instr} (h : exec i s = .next t) : t.params = s.params := by
  rcases exec_accepts_or_keepsRequest h with ⟨-, rfl⟩ | hk
  · rfl
  · exact hk.params

theorem step_params (h : step s = .next t) : t.params = s.params := by
  rcases step_cases h with ⟨-, rfl⟩ | ⟨-, -, -, u, hu, rfl⟩ | ⟨-, -, u, hu, rfl⟩ | ⟨-, -, -, rfl⟩ | ⟨-, -, -, rfl⟩
  · rfl
  · exact u.advance_params.trans (exec_params hu)
  · exact u.advance_params.trans (exec_params hu)
  · rfl
  · rfl

/-- Settles O28: reset, rest and every row of the sequencer keep `params`. -/
theorem stepKeepsTheConstructionParameters : Obligations.StepKeepsTheConstructionParameters :=
  fun _ _ => step_params

/-! ### Phases that are not `FAULTED` -/

@[simp] theorem isFaulted_after (bw : BusWidth) (p : Phase) : (p.after bw).isFaulted = p.isFaulted := by
  cases p <;> cases bw <;> rfl

/-- No phase of a transaction (`DRIVE` to `ENLO`, 40_shared_transmit.md R76) is `FAULTED`. -/
theorem not_isFaulted_of_transaction {p : Phase} (h : (p.isDrive || p.isEnHi || p.isWait || p.isEnLo) = true) :
    p.isFaulted = false := by
  cases p with
  | faulted l => simp [Phase.isDrive, Phase.isEnHi, Phase.isWait, Phase.isEnLo] at h
  | _ => rfl

/-! ### The trace and the lines -/

/-- From `s` to `t` at most one event is appended; unless `t` is faulted the lines are those it leads to, and if `t` is
faulted there is none. -/
def AppendsOneEvent (s t : State) : Prop :=
  ∃ es, t.trace = s.trace ++ es ∧ es.length ≤ 1 ∧
    (t.ph.isFaulted = false → t.lines = replay s.lines es) ∧ (t.ph.isFaulted = true → es = [])

theorem AppendsOneEvent.of_silent (htr : t.trace = s.trace) (hl : t.lines = s.lines) : AppendsOneEvent s t :=
  ⟨[], by simp [htr], by simp, fun _ => hl, fun _ => rfl⟩

theorem AppendsOneEvent.of_event (e : Event) (htr : t.trace = s.trace ++ [e]) (hl : t.lines = s.lines.apply e)
    (hp : t.ph.isFaulted = false) : AppendsOneEvent s t :=
  ⟨[e], htr, by simp, fun _ => hl, by simp [hp]⟩

theorem raiseLineSetFault_appendsOneEvent (l : Line) (s : State) : AppendsOneEvent s (s.raiseLineSetFault l) :=
  ⟨[], by simp, by simp, by simp [Phase.isFaulted], fun _ => rfl⟩

theorem writeLine_appendsOneEvent (l : Line) (v : Level) {nxt : Phase} (hn : nxt.isFaulted = false) (s : State) :
    AppendsOneEvent s (s.writeLine l v nxt) := by
  rcases writeLine_cases l v nxt s with ⟨-, e⟩ | ⟨-, e⟩ <;> rw [e]
  · exact raiseLineSetFault_appendsOneEvent l s
  · exact .of_event (.w l v) rfl rfl hn

theorem drive_appendsOneEvent (v : DataWord) {nxt : Phase} (hn : nxt.isFaulted = false)
    (hs : s.ph.isFaulted = false) : AppendsOneEvent s (s.drive v nxt) := by
  rcases drive_cases v nxt s with ⟨l, -, -, e⟩ | ⟨-, -, e⟩ | ⟨-, -, e⟩ | ⟨-, j, -, -, -, ph, _, hph, e⟩ <;> rw [e]
  · exact raiseLineSetFault_appendsOneEvent l s
  · exact .of_event (.wd v) rfl rfl hn
  · exact .of_silent rfl rfl
  · have hp : ph.isFaulted = false := by
      rcases hph with ⟨-, rfl, -⟩ | ⟨-, rfl, -⟩ <;> assumption
    exact .of_event (.w (v.line j) (v.bit j)) rfl rfl hp

theorem waitDelay_appendsOneEvent (nxt : Phase) (hs : s.ph.isFaulted = false) :
    AppendsOneEvent s (s.waitDelay nxt) := by
  rcases waitDelay_cases nxt s with ⟨-, e⟩ | ⟨_, -, -, e⟩ | ⟨_, -, -, e⟩ | ⟨-, e⟩ <;> rw [e]
  · exact .of_event (.dly s.params.tPulseMs) rfl rfl hs
  · exact .of_silent rfl rfl
  · exact .of_silent rfl rfl
  · exact .of_silent rfl rfl

theorem setRs_appendsOneEvent (f : Bool) {nxt : Phase} (hn : nxt.isFaulted = false) (s : State) :
    AppendsOneEvent s (s.setRs f nxt) := by
  rcases setRs_cases f nxt s with ⟨-, e⟩ | ⟨-, -, e⟩ | ⟨-, -, e⟩ <;> rw [e]
  · exact .of_silent rfl rfl
  · exact raiseLineSetFault_appendsOneEvent .rs s
  · exact .of_event (.w .rs true) rfl rfl hn

theorem clearRs_appendsOneEvent (f : Bool) (s : State) : AppendsOneEvent s (s.clearRs f) := by
  rcases clearRs_cases f s with ⟨-, e⟩ | ⟨-, -, e⟩ | ⟨-, -, e⟩ <;> rw [e]
  · exact .of_silent rfl rfl
  · exact raiseLineSetFault_appendsOneEvent .rs s
  · exact .of_event (.w .rs false) rfl rfl rfl

/-- Settles O34, row by row of the sequencer. -/
theorem traceIsTheWholeSideEffect : Obligations.TraceIsTheWholeSideEffect := by
  intro i s t h
  obtain ⟨-, -, ⟨-, rfl⟩ | ⟨hp, rfl⟩ | ⟨hd, rfl⟩ | ⟨he, rfl⟩ | ⟨hw, rfl⟩ | ⟨he, rfl⟩ | ⟨-, rfl⟩ | ⟨-, -, rfl⟩⟩ :=
    exec_cases h
  · exact AppendsOneEvent.of_silent rfl rfl
  · exact setRs_appendsOneEvent _ (by rw [isFaulted_after, hp]; rfl) s
  · have hs : s.ph.isFaulted = false := not_isFaulted_of_transaction (by simp [hd])
    exact drive_appendsOneEvent _ (by simpa using hs) hs
  · exact writeLine_appendsOneEvent _ _ (by simp [not_isFaulted_of_transaction, he]) s
  · exact waitDelay_appendsOneEvent _ (not_isFaulted_of_transaction (by simp [hw]))
  · exact writeLine_appendsOneEvent _ _ (by simp [not_isFaulted_of_transaction, he]) s
  · exact clearRs_appendsOneEvent _ s
  · exact AppendsOneEvent.of_silent rfl rfl

/-! ### No byte value is special -/

/-- `t` and `t'` agree on the phase, `RS`, `EN`, the delay, `done`, `ISDATA` and the number of events. -/
structure AlikeButForByte (t t' : State) : Prop where
  ph : t'.ph = t.ph
  rs : t'.lines.rs = t.lines.rs
  en : t'.lines.en = t.lines.en
  dly : t'.dly = t.dly
  done : t'.done = t.done
  isData : t'.isData = t.isData
  events : t'.trace.length = t.trace.length

theorem AlikeButForByte.refl (t : State) : AlikeButForByte t t := ⟨rfl, rfl, rfl, rfl, rfl, rfl, rfl⟩

theorem accept_alike (f : Bool) (b b' : Byte) (s : State) : AlikeButForByte (s.accept f b) (s.accept f b') :=
  ⟨rfl, rfl, rfl, rfl, rfl, rfl, rfl⟩

/-- Which lines are left to write depends on the variant alone, so two values of one variant are written line by line
in the same order. -/
theorem driveOne_alike {v v' : DataWord} (hv : v'.variant = v.variant) (hf : s.params.lineFallible = false)
    (nxt : Phase) : AlikeButForByte (s.driveOne v nxt) (s.driveOne v' nxt) := by
  have hu : s.undriven v' = s.undriven v := by simp [State.undriven, hv]
  unfold State.driveOne
  rw [hu]
  cases s.undriven v with
  | nil => exact .refl _
  | cons k ks =>
    simp only [writeFails_of_infallible hf, Bool.false_eq_true, if_false, Lines.set_line]
    exact ⟨rfl, rfl, rfl, rfl, rfl, rfl, by simp⟩

theorem drive_alike {v v' : DataWord} (hv : v'.variant = v.variant) (hf : s.params.lineFallible = false)
    (nxt : Phase) : AlikeButForByte (s.drive v nxt) (s.drive v' nxt) := by
  cases ha : s.params.dataAtomic
  · simpa [State.drive, ha] using driveOne_alike hv hf nxt
  · rw [drive_of_plain hf ha, drive_of_plain hf ha]
    exact ⟨rfl, rfl, rfl, rfl, rfl, rfl, by simp⟩

theorem exec_of_idle {i : Instr} (hv : s.params.busWidth = i.busWidth) (hp : s.ph = .idle) :
    exec i s = .next (s.accept i.isData i.byte) := by
  rw [exec_eq i hv (by rw [hp]; rfl), if_pos hp]

theorem exec_of_isDrive {i : Instr} (hv : s.params.busWidth = i.busWidth) (hp : s.ph.ofVariant i.busWidth = true)
    (hd : s.ph.isDrive = true) :
    exec i s = .next (s.drive (driveValue i s.ph) (s.ph.after i.busWidth)) := by
  rw [exec_eq i hv hp, if_neg (by intro e; simp [e, Phase.isDrive] at hd),
    if_neg (by intro e; simp [e, Phase.isDrive] at hd), if_pos hd]

/-- Only acceptance and the `DRIVE` phases look at the byte. -/
theorem exec_congr_of_not_isDrive {i i' : Instr} (hbw : i'.busWidth = i.busWidth) (hfl : i'.isData = i.isData)
    (hi : s.ph ≠ .idle) (hd : s.ph.isDrive = false) : exec i' s = exec i s := by
  by_cases hv : s.params.busWidth = i.busWidth
  · cases hp : s.ph.ofVariant i.busWidth
    · rw [exec_foreignPhase i hv hp, exec_foreignPhase i' (hv.trans hbw.symm) (hbw ▸ hp)]
    · rw [exec_eq i hv hp, exec_eq i' (hv.trans hbw.symm) (hbw ▸ hp), hbw, hfl]
      simp only [hi, hd, Bool.false_eq_true, if_false]
  · rw [exec_otherVariant i hv, exec_otherVariant i' (hbw ▸ hv)]

/-- Two instructions of one variant and flag make alike steps from any state with infallible lines. -/
theorem exec_alike {i i' : Instr} (hbw : i'.busWidth = i.busWidth) (hfl : i'.isData = i.isData)
    (hf : s.params.lineFallible = false) (h : exec i s = .next t) :
    ∃ t', exec i' s = .next t' ∧ AlikeButForByte t t' := by
  obtain ⟨hv, hp, -⟩ := exec_cases h
  have hv' : s.params.busWidth = i'.busWidth := hv.trans hbw.symm
  have hp' : s.ph.ofVariant i'.busWidth = true := hbw ▸ hp
  by_cases hi : s.ph = .idle
  · rw [exec_of_idle hv hi] at h
    cases h
    exact ⟨_, exec_of_idle hv' hi, hfl ▸ accept_alike _ _ _ s⟩
  cases hd : s.ph.isDrive
  · exact ⟨t, (exec_congr_of_not_isDrive hbw hfl hi hd).trans h, .refl t⟩
  · rw [exec_of_isDrive hv hp hd] at h
    cases h
    have hvar : (driveValue i' s.ph).variant = (driveValue i s.ph).variant := by
      rw [driveValue_variant hp' hd, driveValue_variant hp hd, hbw]
    exact ⟨_, exec_of_isDrive hv' hp' hd, hbw ▸ drive_alike hvar hf _⟩

/-- Settles O36: the two requests decode to instructions of one variant and flag. -/
theorem noByteValueIsSpecial : Obligations.NoByteValueIsSpecial := by
  intro bw f b b' s t hf h
  obtain ⟨t', h', ha⟩ := exec_alike (i' := decode bw (reqWord f b')) (by simp) (by simp) hf h
  exact ⟨t', h', ha.ph, ha.rs, ha.en, ha.dly, ha.done, ha.isData, ha.events⟩

end Sys2Proof.Machine
end

section
/-! SUPPORT. Proofs for 10_state.md, the invariant: it holds at reset (O37, O20), every step keeps it
(O21), and what it says of `EN`, `RS` and the data lines (O22, O23). -/

namespace Sys2Proof.Machine

variable {s t : State} {i : Instr}

/-! ### The phases after one another -/

/-- A `WAIT` or `ENLO` phase comes after an `ENHI` or `WAIT` phase, and after no other. -/
theorem enHigh_after (bw : BusWidth) (p : Phase) : (p.after bw).enHigh = (p.isEnHi || p.isWait) := by
  cases p <;> cases bw <;> rfl

/-- In a phase of a transaction (40_shared_transmit.md R76) and in the one after it, `RS` follows `is_data`. -/
theorem rsHeld_of_transaction {p : Phase} (h : (p.isDrive || p.isEnHi || p.isWait || p.isEnLo) = true)
    (bw : BusWidth) : p.rsHeld = true ∧ (p.after bw).rsHeld = true := by
  cases p <;> cases bw <;> simp_all [Phase.isDrive, Phase.isEnHi, Phase.isWait, Phase.isEnLo, Phase.rsHeld, Phase.after]

theorem rsHeld_after_rsSet (bw : BusWidth) : (Phase.rsSet.after bw).rsHeld = true := by
  cases bw <;> rfl

theorem enHigh_of_isWait {p : Phase} (h : p.isWait = true) : p.enHigh = true := by
  rw [Phase.enHigh, h, Bool.true_or]

/-- A `DRIVE` phase is of no other kind. -/
theorem kinds_of_isDrive {p : Phase} (h : p.isDrive = true) :
    p.isEnHi = false ∧ p.isWait = false ∧ p.isEnLo = false := by
  cases p <;> simp_all [Phase.isDrive, Phase.isEnHi, Phase.isWait, Phase.isEnLo]

/-- A `WAIT` phase is of no other kind. -/
theorem kinds_of_isWait {p : Phase} (h : p.isWait = true) :
    p.isDrive = false ∧ p.isEnHi = false ∧ p.isEnLo = false := by
  cases p <;> simp_all [Phase.isDrive, Phase.isEnHi, Phase.isWait, Phase.isEnLo]

/-- After a phase that drives nothing, the data lines must hold no other value than in that phase. -/
theorem dataHeld_of_after {bw : BusWidth} {b : Byte} {p : Phase} {v : DataWord} (hp : p.ofVariant bw = true)
    (hd : p.isDrive = false) (h : (p.after bw).dataHeld bw b = some v) : p.dataHeld bw b = some v := by
  cases p <;> cases bw <;> simp_all [Phase.ofVariant, Phase.isDrive, Phase.after, Phase.dataHeld, lastDriven]

/-! ### The invariant outside `FAULTED` -/

/-- The parts of the invariant, read where no line write has failed. -/
structure LiveInv (s : State) : Prop where
  rests : restsLow s.params = true
  bank : s.lines.data.variant = s.params.busWidth
  phase : s.ph.ofVariant s.params.busWidth = true
  en : s.lines.en = s.ph.enHigh
  rs : s.lines.rs = (s.ph.rsHeld && s.isData)
  data : ∀ v, s.ph.dataHeld s.params.busWidth s.byte = some v → s.lines.data = v
  delay : s.delayOk = true
  driven : s.drivenOk = true

theorem dataOk_iff (s : State) :
    s.dataOk = true ↔ ∀ v, s.ph.dataHeld s.params.busWidth s.byte = some v → s.lines.data = v := by
  unfold State.dataOk
  split <;> simp_all

theorem inv_iff_liveInv (hf : s.ph.isFaulted = false) : s.inv = true ↔ LiveInv s := by
  rw [inv_iff, dataOk_iff]
  simp only [State.bankOk, State.phaseOk, State.enOk, State.rsOk, State.faultOk, hf, beq_iff_eq, Bool.false_or,
    Bool.not_false, Bool.or_true, true_and]
  exact ⟨fun ⟨h1, h2, h3, h4, h5, h6, h7, h8⟩ => ⟨h1, h2, h3, h4, h5, h6, h7, h8⟩,
    fun ⟨h1, h2, h3, h4, h5, h6, h7, h8⟩ => ⟨h1, h2, h3, h4, h5, h6, h7, h8⟩⟩

theorem delayOk_of_none (h : s.dly = .none) : s.delayOk = true := by
  simp [State.delayOk, h]

/-- Fault entry keeps the invariant: a write that fails is on fallible lines, and no write is made in a `WAIT` phase. -/
theorem inv_raiseLineSetFault {l : Line} (hs : s.inv = true) (hf : s.writeFails l = true) (hd : s.dly = .none) :
    (s.raiseLineSetFault l).inv = true := by
  obtain ⟨hrests, hbank, -⟩ := (inv_iff s).1 hs
  obtain ⟨hfallible, -⟩ := (writeFails_iff l).1 hf
  refine (inv_iff _).2 ⟨hrests, ?_, rfl, rfl, rfl, rfl, delayOk_of_none hd, ?_, rfl⟩
  · simpa [State.bankOk] using hbank
  · simp [State.faultOk, hfallible]

/-! ### Reset -/

/-- An idle state at low resting levels. -/
theorem inv_of_idle_at_rest (hr : restsLow t.params = true) (hb : t.lines.data.variant = t.params.busWidth)
    (hp : t.ph = .idle) (hen : t.lines.en = t.params.enReset) (hrs : t.lines.rs = t.params.rsReset)
    (hdly : t.dly = .none) (hdr : t.driven = 0) : t.inv = true := by
  obtain ⟨hr1, hr2⟩ : t.params.rsReset = false ∧ t.params.enReset = false := by simpa [restsLow] using hr
  refine (inv_iff_liveInv (by rw [hp]; rfl)).2
    ⟨hr, hb, by rw [hp]; rfl, ?_, ?_, by simp [hp, Phase.dataHeld], delayOk_of_none hdly, drivenOk_of_zero hdr⟩
  · rw [hen, hr2, hp]; rfl
  · rw [hrs, hr1, hp]; rfl

theorem inv_resetWith {p : Params} (hr : restsLow p = true) (world : List Inputs) :
    { State.resetWith p with world := world }.inv = true :=
  inv_of_idle_at_rest hr (variant_dataOfByte _ _) rfl rfl rfl rfl rfl

theorem inv_applyReset (hs : s.inv = true) : s.applyReset.inv = true :=
  inv_of_idle_at_rest ((inv_iff s).1 hs).1 (variant_dataOfByte _ _) rfl rfl rfl rfl rfl

/-- Settles O37: every field named is one of the record `State.resetWith`. -/
theorem resetValues : Obligations.ResetValues :=
  ⟨rfl, rfl, rfl, fun _ => ⟨rfl, rfl, variant_dataOfByte _ _, rfl, rfl, rfl, rfl, rfl, rfl, rfl, rfl⟩⟩

/-- Settles O20: `State.reset` is the standard 8-bit one, whose resting levels are low. -/
theorem instanceInvariantHoldsAtReset : Obligations.InstanceInvariantHoldsAtReset :=
  ⟨inv_resetWith (p := Params.standard .eight) rfl [], fun _ world hr => inv_resetWith hr world⟩

/-! ### The rows of the sequencer keep the invariant -/

theorem accept_inv (hs : s.inv = true) (hp : s.ph = .idle) (f : Bool) (b : Byte) : (s.accept f b).inv = true := by
  have hl := (inv_iff_liveInv (by rw [hp]; rfl)).1 hs
  have hdly : s.dly = .none := dly_eq_none hl.delay (by rw [hp]; rfl)
  have hdr : s.driven = 0 := driven_eq_zero hl.driven (by rw [hp]; rfl)
  have hen : s.lines.en = false := by rw [hl.en, hp]; rfl
  have hrs : s.lines.rs = false := by rw [hl.rs, hp]; rfl
  exact (inv_iff_liveInv rfl).2
    ⟨hl.rests, hl.bank, rfl, hen, hrs, by simp [Phase.dataHeld], delayOk_of_none hdly, drivenOk_of_zero hdr⟩

/-- A row that drives no data line keeps the invariant in moving on to the next phase, when it leaves `EN` and `RS` at
the levels of that phase and no delay pending. -/
theorem inv_of_next_phase (hs : s.inv = true) (hf : s.ph.isFaulted = false) (hd : s.ph.isDrive = false)
    (hk : KeepsRequest s t) (hp : t.ph = s.ph.after s.params.busWidth)
    (hdata : t.lines.data = s.lines.data) (hen : t.lines.en = t.ph.enHigh)
    (hrs : t.lines.rs = (t.ph.rsHeld && s.isData)) (hdly : t.dly = .none) (hdr : t.driven = s.driven) :
    t.inv = true := by
  have hl := (inv_iff_liveInv hf).1 hs
  refine (inv_iff_liveInv (by simpa [hp] using hf)).2 ⟨?_, ?_, ?_, hen, ?_, ?_, delayOk_of_none hdly, ?_⟩
  · rw [hk.params]; exact hl.rests
  · rw [hk.params, hdata]; exact hl.bank
  · rw [hk.params, hp]; exact ofVariant_after hl.phase
  · rw [hrs, hk.isData]
  · rw [hk.params, hk.byte, hp, hdata]
    exact fun v hv => hl.data v (dataHeld_of_after hl.phase hd hv)
  · exact drivenOk_of_zero (hdr.trans (driven_eq_zero hl.driven hd))

theorem setRs_inv (hs : s.inv = true) (hp : s.ph = .rsSet) :
    (s.setRs s.isData (s.ph.after s.params.busWidth)).inv = true := by
  have hf : s.ph.isFaulted = false := by rw [hp]; rfl
  have hl := (inv_iff_liveInv hf).1 hs
  have hdly : s.dly = .none := dly_eq_none hl.delay (by rw [hp]; rfl)
  have hk := setRs_keepsRequest s.isData (s.ph.after s.params.busWidth) s
  have hen : s.lines.en = (s.ph.after s.params.busWidth).enHigh := by rw [hl.en, enHigh_after, hp]; rfl
  rcases setRs_cases s.isData (s.ph.after s.params.busWidth) s with ⟨h, e⟩ | ⟨-, hw, e⟩ | ⟨h, -, e⟩ <;>
    rw [e] at hk ⊢
  · exact inv_of_next_phase hs hf (by rw [hp]; rfl) hk rfl rfl hen (by simp [hl.rs, h]) hdly rfl
  · exact inv_raiseLineSetFault hs hw hdly
  · exact inv_of_next_phase hs hf (by rw [hp]; rfl) hk rfl rfl hen (by simp [rsHeld_after_rsSet, hp, h]) hdly rfl

theorem clearRs_inv (hs : s.inv = true) (hp : s.ph = .rsClr) : (s.clearRs s.isData).inv = true := by
  have hf : s.ph.isFaulted = false := by rw [hp]; rfl
  have hl := (inv_iff_liveInv hf).1 hs
  have hdly : s.dly = .none := dly_eq_none hl.delay (by rw [hp]; rfl)
  have hnext : s.ph.after s.params.busWidth = .idle := by rw [hp]; rfl
  have hk := clearRs_keepsRequest s.isData s
  have hen : s.lines.en = Phase.idle.enHigh := by rw [hl.en, hp]; rfl
  rcases clearRs_cases s.isData s with ⟨h, e⟩ | ⟨-, hw, e⟩ | ⟨h, -, e⟩ <;> rw [e] at hk ⊢
  · exact inv_of_next_phase hs hf (by rw [hp]; rfl) hk hnext.symm rfl hen (by simp [hl.rs, h]) hdly rfl
  · exact inv_raiseLineSetFault hs hw hdly
  · exact inv_of_next_phase hs hf (by rw [hp]; rfl) hk hnext.symm rfl hen rfl hdly rfl

/-- The write of `EN` in an `ENHI` or `ENLO` phase. -/
theorem writeLine_en_inv (hs : s.inv = true) (v : Level)
    (hp : s.ph.isEnHi = true ∧ v = true ∨ s.ph.isEnLo = true ∧ v = false) :
    (s.writeLine .en v (s.ph.after s.params.busWidth)).inv = true := by
  have hkind : (s.ph.isEnHi || s.ph.isEnLo) = true ∧ s.ph.isDrive = false ∧ s.ph.isWait = false ∧
      s.ph.isEnHi = v := by
    rcases hp with ⟨h, rfl⟩ | ⟨h, rfl⟩ <;> cases hph : s.ph <;> rw [hph] at h <;>
      simp_all [Phase.isEnHi, Phase.isEnLo, Phase.isDrive, Phase.isWait]
  obtain ⟨hk, hd, hw, hv⟩ := hkind
  have htx : (s.ph.isDrive || s.ph.isEnHi || s.ph.isWait || s.ph.isEnLo) = true := by simpa [hd, hw] using hk
  have hf := not_isFaulted_of_transaction htx
  obtain ⟨hheld, hnext⟩ := rsHeld_of_transaction htx s.params.busWidth
  have hl := (inv_iff_liveInv hf).1 hs
  have hdly := dly_eq_none hl.delay hw
  have hk := writeLine_keepsRequest .en v (s.ph.after s.params.busWidth) s
  rcases writeLine_cases .en v (s.ph.after s.params.busWidth) s with ⟨hfail, e⟩ | ⟨-, e⟩ <;> rw [e] at hk ⊢
  · exact inv_raiseLineSetFault hs hfail hdly
  · refine inv_of_next_phase hs hf hd hk rfl rfl ?_ ?_ hdly rfl
    · simp [enHigh_after, hv, hw]
    · simp [hl.rs, hheld, hnext]

theorem waitDelay_inv (hs : s.inv = true) (hw : s.ph.isWait = true) :
    (s.waitDelay (s.ph.after s.params.busWidth)).inv = true := by
  have hf : s.ph.isFaulted = false := not_isFaulted_of_transaction (by simp [hw])
  obtain ⟨hd, -, -⟩ := kinds_of_isWait hw
  obtain ⟨hheld, hnext⟩ := rsHeld_of_transaction (p := s.ph) (by simp [hw]) s.params.busWidth
  have hl := (inv_iff_liveInv hf).1 hs
  have hstay {d : Delay} (tr : List Event) (hok : { s with dly := d, trace := tr, done := false }.delayOk = true) :
      { s with dly := d, trace := tr, done := false }.inv = true :=
    (inv_iff_liveInv (by exact hf)).2 { hl with delay := hok }
  rcases waitDelay_cases (s.ph.after s.params.busWidth) s with ⟨-, e⟩ | ⟨_, -, -, e⟩ | ⟨_, -, -, e⟩ | ⟨-, e⟩ <;> rw [e]
  · exact hstay _ (by simp [State.delayOk, hw])
  · exact hstay _ (by simp [State.delayOk, hw])
  · exact hstay _ hl.delay
  · refine inv_of_next_phase hs hf hd ⟨rfl, rfl, rfl, rfl⟩ rfl rfl ?_ ?_ rfl rfl
    · exact hl.en.trans (by simp [enHigh_after, enHigh_of_isWait hw, hw])
    · simp [hl.rs, hheld, hnext]

/-! #### The drive of the data lines -/

theorem dataHeld_of_isDrive {p : Phase} (hd : p.isDrive = true) (bw : BusWidth) (b : Byte) :
    p.dataHeld bw b = none := by
  cases p <;> simp_all [Phase.isDrive, Phase.dataHeld]

/-- In a `DRIVE` phase the mask speaks of the value that the latched request drives. -/
theorem drivenOk_of_isDrive (hb : i.byte = s.byte) (hd : s.ph.isDrive = true) :
    s.drivenOk = s.drivenHold (driveValue i s.ph) := by
  cases hp : s.ph <;> simp_all [Phase.isDrive, State.drivenOk, driveValue]

/-- Writing one of at least two data lines left to write adds it to the mask and keeps what the mask says. -/
theorem drivenHold_of_write_one {v : DataWord} {j : Nat} (ha : s.params.dataAtomic = false)
    (hb : s.lines.data.variant = v.variant) (hj : j < v.variant.nData) (h2 : 2 ≤ (s.undriven v).length)
    (hs : s.drivenHold v = true) (hpar : t.params = s.params)
    (hdata : t.lines.data = s.lines.data.setLine (v.line j) (v.bit j)) (hdr : t.driven = setBit s.driven j true) :
    t.drivenHold v = true := by
  have hj8 : j < 8 := lt_of_lt_of_le hj (by cases v.variant <;> decide)
  have hmask (k : Nat) : t.driven.getLsbD k = if k = j then true else s.driven.getLsbD k := by
    rw [hdr, setBit_getLsbD _ _ _ _ hj8]
  obtain ⟨hbits, -, -⟩ := (drivenHold_iff s v).1 hs
  refine (drivenHold_iff t v).2 ⟨fun k hk hm => ?_, ?_, by simp [hpar, ha]⟩
  · rw [hdata, bit_setLine _ _ hb _ _ hj]
    rw [hmask] at hm
    split at hm <;> simp_all
  · obtain ⟨k, hk, hne⟩ := exists_undriven_ne j h2
    obtain ⟨hlt, hun⟩ := (mem_undriven _ _ _).1 hk
    exact ⟨k, (mem_undriven _ _ _).2 ⟨hlt, by rw [hmask, if_neg hne, hun]⟩⟩

/-- Writing the last data line left to write completes the value. -/
theorem setLine_eq_of_last {v : DataWord} {j : Nat} (hb : s.lines.data.variant = v.variant)
    (hj : j ∈ s.undriven v) (h1 : (s.undriven v).length = 1) (hs : s.drivenHold v = true) :
    s.lines.data.setLine (v.line j) (v.bit j) = v := by
  obtain ⟨hbits, -, -⟩ := (drivenHold_iff s v).1 hs
  have hlt : j < v.variant.nData := ((mem_undriven _ _ _).1 hj).1
  refine DataWord.ext_bit _ _ (by simpa using hb) fun k hk => ?_
  rw [variant_setLine, hb] at hk
  rw [bit_setLine _ _ hb _ _ hlt]
  split
  · simp_all
  · exact hbits k hk (driven_of_undriven_length_one hj h1 hk ‹_›)

/-- A `DRIVE` phase moves on with the data lines at its value and an empty mask. -/
theorem inv_of_driven (hs : s.inv = true) (hv : s.params.busWidth = i.busWidth) (hb : i.byte = s.byte)
    (hd : s.ph.isDrive = true) (hk : KeepsRequest s t) (hp : t.ph = s.ph.after i.busWidth)
    (hdata : t.lines.data = driveValue i s.ph) (hen : t.lines.en = s.lines.en) (hrs : t.lines.rs = s.lines.rs)
    (hdly : t.dly = s.dly) (hdr : t.driven = 0) : t.inv = true := by
  have hf : s.ph.isFaulted = false := not_isFaulted_of_transaction (by simp [hd])
  obtain ⟨hnHi, hnWait, hnLo⟩ := kinds_of_isDrive hd
  obtain ⟨hheld, hnext⟩ := rsHeld_of_transaction (p := s.ph) (by simp [hd]) i.busWidth
  have hl := (inv_iff_liveInv hf).1 hs
  have hphase : s.ph.ofVariant i.busWidth = true := hv ▸ hl.phase
  refine (inv_iff_liveInv (by simpa [hp] using hf)).2 ⟨?_, ?_, ?_, ?_, ?_, ?_, ?_, drivenOk_of_zero hdr⟩
  · rw [hk.params]; exact hl.rests
  · rw [hk.params, hdata, driveValue_variant hphase hd, hv]
  · rw [hk.params, hp, hv]; exact ofVariant_after hphase
  · rw [hen, hl.en, hp, enHigh_after, Phase.enHigh, hnHi, hnWait, hnLo]
  · simp [hrs, hl.rs, hp, hheld, hnext, hk.isData]
  · rw [hk.params, hk.byte, hp, hv, ← hb, dataHeld_after_drive i hd hphase, hdata]
    exact fun v hv => Option.some.inj hv
  · exact delayOk_of_none (hdly.trans (dly_eq_none hl.delay hnWait))

theorem drive_inv (hs : s.inv = true) (hv : s.params.busWidth = i.busWidth) (hb : i.byte = s.byte)
    (hd : s.ph.isDrive = true) : (s.drive (driveValue i s.ph) (s.ph.after i.busWidth)).inv = true := by
  have hf : s.ph.isFaulted = false := not_isFaulted_of_transaction (by simp [hd])
  have hl := (inv_iff_liveInv hf).1 hs
  obtain ⟨-, hw, -⟩ := kinds_of_isDrive hd
  have hhold : s.drivenHold (driveValue i s.ph) = true := drivenOk_of_isDrive hb hd ▸ hl.driven
  obtain ⟨-, ⟨k, hk⟩, hzero⟩ := (drivenHold_iff s _).1 hhold
  have hbank : s.lines.data.variant = (driveValue i s.ph).variant := by
    rw [hl.bank, driveValue_variant (hv ▸ hl.phase) hd, hv]
  have hkeep := drive_keepsRequest (driveValue i s.ph) (s.ph.after i.busWidth) s
  rcases drive_cases (driveValue i s.ph) (s.ph.after i.busWidth) s with
    ⟨l, -, hfail, e⟩ | ⟨ha, -, e⟩ | ⟨-, hnil, -⟩ | ⟨ha, j, hj, hun, -, ph, m, hlast, e⟩
  · rw [e]
    exact inv_raiseLineSetFault hs hfail (dly_eq_none hl.delay hw)
  · rw [e] at hkeep ⊢
    exact inv_of_driven hs hv hb hd hkeep rfl rfl rfl rfl rfl (hzero ha)
  · rw [hnil] at hk
    simp at hk
  · rw [e, Lines.set_line] at hkeep ⊢
    rcases hlast with ⟨h1, rfl, rfl⟩ | ⟨h2, rfl, rfl⟩
    · have hdata := setLine_eq_of_last hbank ((mem_undriven _ _ _).2 ⟨hj, hun⟩) h1 hhold
      exact inv_of_driven hs hv hb hd hkeep rfl hdata rfl rfl rfl rfl
    · refine (inv_iff_liveInv (by exact hf)).2 { hl with bank := ?_, data := ?_, driven := ?_ }
      · simpa using hl.bank
      · simp [dataHeld_of_isDrive hd]
      · refine (drivenOk_of_isDrive (i := i) (by exact hb) (by exact hd)).trans ?_
        exact drivenHold_of_write_one ha hbank hj h2 hhold rfl rfl rfl

/-! ### Every step keeps the invariant -/

theorem hold_inv (hs : s.inv = true) : s.hold.inv = true := hs

/-- A step of an instruction, which while busy is the latched one, keeps the invariant. -/
theorem exec_inv (hs : s.inv = true) (hlatched : s.ph ≠ .idle → i.isData = s.isData ∧ i.byte = s.byte)
    (h : exec i s = .next t) : t.inv = true := by
  obtain ⟨hv, -, hrow⟩ := exec_cases h
  by_cases hp : s.ph = .idle
  · rw [exec_of_idle hv hp] at h
    cases h
    exact accept_inv hs hp _ _
  · obtain ⟨hdata, hbyte⟩ := hlatched hp
    rw [hdata] at hrow
    rcases hrow with ⟨hi, -⟩ | ⟨hp, rfl⟩ | ⟨hd, rfl⟩ | ⟨he, rfl⟩ | ⟨hw, rfl⟩ | ⟨he, rfl⟩ | ⟨hp, rfl⟩ | ⟨-, -, rfl⟩
    · exact absurd hi hp
    · exact hv ▸ setRs_inv hs hp
    · exact drive_inv hs hv hbyte hd
    · exact hv ▸ writeLine_en_inv hs true (.inl ⟨he, rfl⟩)
    · exact hv ▸ waitDelay_inv hs hw
    · exact hv ▸ writeLine_en_inv hs false (.inr ⟨he, rfl⟩)
    · exact clearRs_inv hs hp
    · exact hold_inv hs

theorem step_inv (hs : s.inv = true) (h : step s = .next t) : t.inv = true := by
  rcases step_cases h with ⟨-, rfl⟩ | ⟨-, hp, -, u, hu, rfl⟩ | ⟨-, -, u, hu, rfl⟩ | ⟨-, -, -, rfl⟩ | ⟨-, -, -, rfl⟩ <;>
    rw [inv_advance]
  · exact inv_applyReset hs
  · exact exec_inv hs (fun hne => absurd hp hne) hu
  · exact exec_inv hs (fun _ => by simp) hu
  · exact hold_inv hs
  · exact hold_inv hs

/-- Settles O21, by the step's cases: reset, an instruction's row, or nothing. -/
theorem stepKeepsTheInstanceInvariant : Obligations.StepKeepsTheInstanceInvariant :=
  fun _ _ => step_inv

/-! ### What the invariant says of the lines -/

theorem reachable_inv {p : Params} (hr : restsLow p = true) (h : Reachable p s) : s.inv = true :=
  reachable_invariant (inv_resetWith hr) (fun _ _ => step_inv) h

/-- Settles O22, by the invariant in `IDLE`. -/
theorem enableAndRsAreLowWhenIdle : Obligations.EnableAndRsAreLowWhenIdle := by
  intro p s hr h hp
  have hl := (inv_iff_liveInv (by rw [hp]; rfl)).1 (reachable_inv hr h)
  exact ⟨by rw [hl.en, hp]; rfl, by rw [hl.rs, hp]; rfl⟩

/-- A write of `EN`, by success or by fault, changes neither `RS` nor a data line. -/
theorem writeLine_en_rs_data (v : Level) (nxt : Phase) (s : State) :
    (s.writeLine .en v nxt).lines.rs = s.lines.rs ∧ (s.writeLine .en v nxt).lines.data = s.lines.data := by
  rcases writeLine_cases .en v nxt s with ⟨-, e⟩ | ⟨-, e⟩ <;> rw [e] <;> exact ⟨rfl, rfl⟩

theorem waitDelay_lines (nxt : Phase) (s : State) : (s.waitDelay nxt).lines = s.lines := by
  rcases waitDelay_cases nxt s with ⟨-, e⟩ | ⟨_, -, -, e⟩ | ⟨_, -, -, e⟩ | ⟨-, e⟩ <;> rw [e] <;> rfl

theorem phase_of_en_high (hs : s.inv = true) (hen : s.lines.en = true) :
    s.ph.isWait = true ∨ s.ph.isEnLo = true ∨ s.ph.isFaulted = true := by
  cases hf : s.ph.isFaulted
  · have hl := (inv_iff_liveInv hf).1 hs
    have hhigh : s.ph.enHigh = true := hl.en ▸ hen
    simpa [Phase.enHigh] using hhigh
  · simp

/-- In a `WAIT` phase, an `ENLO` phase or `FAULTED`, no step of an instruction changes `RS` or a data line. -/
theorem exec_rs_data_of_en_high (hp : s.ph.isWait = true ∨ s.ph.isEnLo = true ∨ s.ph.isFaulted = true)
    (h : exec i s = .next t) : t.lines.rs = s.lines.rs ∧ t.lines.data = s.lines.data := by
  obtain ⟨-, -, ⟨hq, -⟩ | ⟨hq, -⟩ | ⟨hq, -⟩ | ⟨-, rfl⟩ | ⟨-, rfl⟩ | ⟨-, rfl⟩ | ⟨hq, -⟩ | ⟨-, -, rfl⟩⟩ := exec_cases h
  · simp [hq, Phase.isWait, Phase.isEnLo, Phase.isFaulted] at hp
  · simp [hq, Phase.isWait, Phase.isEnLo, Phase.isFaulted] at hp
  · cases hph : s.ph <;> simp_all [Phase.isDrive, Phase.isWait, Phase.isEnLo, Phase.isFaulted]
  · exact writeLine_en_rs_data _ _ s
  · exact ⟨by rw [waitDelay_lines], by rw [waitDelay_lines]⟩
  · exact writeLine_en_rs_data _ _ s
  · simp [hq, Phase.isWait, Phase.isEnLo, Phase.isFaulted] at hp
  · exact ⟨rfl, rfl⟩

/-- Settles O23: by the invariant `EN` is high in those phases only, and none of their rows writes `RS` or a data
line. -/
theorem linesAreStableWhileEnableIsHigh : Obligations.LinesAreStableWhileEnableIsHigh := by
  intro s s' hs hen
  have hp := phase_of_en_high hs hen
  refine ⟨hp, fun hr h => ?_⟩
  rcases step_cases h with ⟨hr', -⟩ | ⟨-, -, -, u, hu, rfl⟩ | ⟨-, -, u, hu, rfl⟩ | ⟨-, -, -, rfl⟩ | ⟨-, -, -, rfl⟩
  · simp [hr] at hr'
  · simpa using exec_rs_data_of_en_high hp hu
  · simpa using exec_rs_data_of_en_high hp hu
  · exact ⟨rfl, rfl⟩
  · exact ⟨rfl, rfl⟩

end Sys2Proof.Machine
end

section
/-! SUPPORT. Proofs for 10_state.md, the phases and the status outputs: the latched request is what a busy step works
on (O6), the straight line of the phases (O29), `done` and `busy` (O30). -/

namespace Sys2Proof.Machine

variable {s t : State} {i : Instr}

theorem fetch_of_busy (h : s.busy = true) : s.fetch = some (reqWord s.isData s.byte) := by
  cases hp : s.ph <;> simp_all [State.busy, State.fetch]

/-- Settles O6, by the word that is fetched while busy. -/
theorem stepRunsTheLatchedRequest : Obligations.StepRunsTheLatchedRequest := by
  intro s i hr hb hi
  rw [step_of_fetch hr (fetch_of_busy hb), hi]

/-! ### Where a row moves `PH` -/

theorem writeLine_ph (l : Line) (v : Level) (nxt : Phase) (s : State) :
    (s.writeLine l v nxt).ph = nxt ∨ s.params.lineFallible = true ∧ (s.writeLine l v nxt).ph.isFaulted = true := by
  rcases writeLine_cases l v nxt s with ⟨h, e⟩ | ⟨-, e⟩ <;> rw [e]
  · exact .inr ⟨((writeFails_iff l).1 h).1, rfl⟩
  · exact .inl rfl

theorem setRs_ph (f : Bool) (nxt : Phase) (s : State) :
    (s.setRs f nxt).ph = nxt ∨ s.params.lineFallible = true ∧ (s.setRs f nxt).ph.isFaulted = true := by
  cases f
  · exact .inl rfl
  · exact writeLine_ph .rs true nxt s

theorem clearRs_ph (f : Bool) (s : State) :
    (s.clearRs f).ph = .idle ∨ s.params.lineFallible = true ∧ (s.clearRs f).ph.isFaulted = true := by
  rcases clearRs_cases f s with ⟨-, e⟩ | ⟨-, h, e⟩ | ⟨-, -, e⟩ <;> rw [e]
  · exact .inl rfl
  · exact .inr ⟨((writeFails_iff .rs).1 h).1, rfl⟩
  · exact .inl rfl

theorem drive_ph (v : DataWord) (nxt : Phase) (s : State) :
    (s.drive v nxt).ph = nxt ∨ s.params.lineFallible = true ∧ (s.drive v nxt).ph.isFaulted = true ∨
    s.params.dataAtomic = false ∧ (s.drive v nxt).ph = s.ph := by
  rcases drive_cases v nxt s with ⟨l, -, h, e⟩ | ⟨-, -, e⟩ | ⟨-, -, e⟩ | ⟨ha, _, -, -, -, ph, _, hph, e⟩ <;> rw [e]
  · exact .inr (.inl ⟨((writeFails_iff l).1 h).1, rfl⟩)
  · exact .inl rfl
  · exact .inl rfl
  · rcases hph with ⟨-, rfl, -⟩ | ⟨-, rfl, -⟩
    · exact .inl rfl
    · exact .inr (.inr ⟨ha, rfl⟩)

theorem waitDelay_ph (nxt : Phase) (s : State) :
    s.dly = .ack ∧ (s.waitDelay nxt).ph = nxt ∨ s.dly ≠ .ack ∧ (s.waitDelay nxt).ph = s.ph := by
  rcases waitDelay_cases nxt s with ⟨h, e⟩ | ⟨_, h, -, e⟩ | ⟨_, h, -, e⟩ | ⟨h, e⟩ <;> rw [e, h]
  · exact .inr ⟨by simp, rfl⟩
  · exact .inr ⟨by simp, rfl⟩
  · exact .inr ⟨by simp, rfl⟩
  · exact .inl ⟨rfl, rfl⟩

/-- Where a step of an instruction moves `PH`, out of `WAIT` and `FAULTED`: to the next phase, unless a write fails or a
data line is left to write. -/
theorem exec_ph (h : exec i s = .next t) (hf : s.ph.isFaulted = false) (hw : s.ph.isWait = false) :
    t.ph = s.ph.after s.params.busWidth ∨ s.params.lineFallible = true ∧ t.ph.isFaulted = true ∨
      s.params.dataAtomic = false ∧ s.ph.isDrive = true ∧ t.ph = s.ph := by
  obtain ⟨hv, -, ⟨hp, rfl⟩ | ⟨-, rfl⟩ | ⟨hd, rfl⟩ | ⟨-, rfl⟩ | ⟨hw', -⟩ | ⟨-, rfl⟩ | ⟨hp, rfl⟩ | ⟨hf', -⟩⟩ :=
    exec_cases h
  · exact .inl (by rw [hp]; rfl)
  · rw [← hv]
    exact (setRs_ph _ _ s).imp_right .inl
  · rw [← hv]
    exact (drive_ph _ _ s).imp_right (Or.imp_right fun ⟨ha, e⟩ => ⟨ha, hd, e⟩)
  · rw [← hv]
    exact (writeLine_ph _ _ _ s).imp_right .inl
  · simp [hw] at hw'
  · rw [← hv]
    exact (writeLine_ph _ _ _ s).imp_right .inl
  · exact (clearRs_ph _ s).imp (fun e => e.trans (by rw [hp]; rfl)) .inl
  · simp [hf] at hf'

/-- A `WAIT` phase is left for the next exactly when the delay was answered. -/
theorem exec_ph_of_isWait (h : exec i s = .next t) (hw : s.ph.isWait = true) :
    s.dly = .ack ∧ t.ph = s.ph.after s.params.busWidth ∨ s.dly ≠ .ack ∧ t.ph = s.ph := by
  obtain ⟨hd, hhi, hlo⟩ := kinds_of_isWait hw
  obtain ⟨hv, hp, -⟩ := exec_cases h
  rw [exec_eq i hv hp, if_neg (by intro e; simp [e, Phase.isWait] at hw),
    if_neg (by intro e; simp [e, Phase.isWait] at hw), if_neg (by simp [hd]), if_neg (by simp [hhi]), if_pos hw] at h
  cases h
  rw [← hv]
  exact waitDelay_ph _ s

/-- A step that is no reset is, while busy, the step of an instruction. -/
theorem exec_of_step_of_busy (h : step s = .next t) (hr : s.inp.rst = false) (hb : s.busy = true) :
    ∃ i u, exec i s = .next u ∧ t = u.advance := by
  rw [step_of_fetch hr (fetch_of_busy hb)] at h
  exact ⟨_, advanceOutcome_eq_next h⟩

theorem busy_iff (s : State) : s.busy = true ↔ s.ph ≠ .idle ∧ s.ph.isFaulted = false := by
  cases hp : s.ph <;> simp [State.busy, Phase.isFaulted, hp]

theorem after_ne_self (bw : BusWidth) {p : Phase} (hf : p.isFaulted = false) : p.after bw ≠ p := by
  cases p <;> cases bw <;> simp_all [Phase.after, Phase.isFaulted]

/-- `IDLE` is left exactly with a request presented. -/
theorem step_ph_of_idle (h : step s = .next t) (hr : s.inp.rst = false) (hp : s.ph = .idle) :
    t.ph = if s.inp.reqValid then .rsSet else .idle := by
  rcases step_cases h with ⟨hr', -⟩ | ⟨-, -, hv, u, hu, rfl⟩ | ⟨-, hb, -⟩ | ⟨-, -, hv, rfl⟩ | ⟨-, hf, -⟩
  · simp [hr] at hr'
  · rw [exec_of_idle (by simp) hp] at hu
    cases hu
    simp [hv]
  · exact absurd hp ((busy_iff s).1 hb).1
  · simp [hv, hp]
  · simp [hp, Phase.isFaulted] at hf

/-- Settles O29: in `IDLE` by the request presented, else by where the row of the phase moves `PH`. -/
theorem phasesAdvanceInAStraightLine : Obligations.PhasesAdvanceInAStraightLine := by
  intro s s' hr hf h
  by_cases hp : s.ph = .idle
  · have hnext := step_ph_of_idle h hr hp
    cases hv : s.inp.reqValid <;> rw [hv] at hnext
    · simp [hp, hnext, Phase.isWait]
    · simp [hp, hnext, Phase.isWait, Phase.after]
  · obtain ⟨i, u, hu, rfl⟩ := exec_of_step_of_busy h hr ((busy_iff s).2 ⟨hp, hf⟩)
    cases hw : s.ph.isWait
    · rcases exec_ph hu hf hw with e | ⟨hl, e⟩ | ⟨ha, -, e⟩
      · simp [e, hp]
      · simp [e, hp, hl]
      · simp [e, hp, ha]
    · have hne := after_ne_self s.params.busWidth hf
      rcases exec_ph_of_isWait hu hw with ⟨hd, e⟩ | ⟨hd, e⟩
      · simp [e, hp, hd]
      · simp [e, hp, hd, hne.symm]

/-! ### `done` and `busy` -/

@[simp] theorem writeLine_done (l : Line) (v : Level) (nxt : Phase) (s : State) :
    (s.writeLine l v nxt).done = false := by
  rcases writeLine_cases l v nxt s with ⟨-, e⟩ | ⟨-, e⟩ <;> simp [e]

@[simp] theorem setRs_done (f : Bool) (nxt : Phase) (s : State) : (s.setRs f nxt).done = false := by
  cases f
  · rfl
  · exact writeLine_done .rs true nxt s

@[simp] theorem drive_done (v : DataWord) (nxt : Phase) (s : State) : (s.drive v nxt).done = false := by
  rcases drive_cases v nxt s with ⟨_, -, -, e⟩ | ⟨-, -, e⟩ | ⟨-, -, e⟩ | ⟨-, _, -, -, -, _, _, -, e⟩ <;> simp [e]

@[simp] theorem waitDelay_done (nxt : Phase) (s : State) : (s.waitDelay nxt).done = false := by
  rcases waitDelay_cases nxt s with ⟨-, e⟩ | ⟨_, -, -, e⟩ | ⟨_, -, -, e⟩ | ⟨-, e⟩ <;> simp [e]

theorem clearRs_done_iff (f : Bool) (s : State) : (s.clearRs f).done = true ↔ (s.clearRs f).ph = .idle := by
  rcases clearRs_cases f s with ⟨-, e⟩ | ⟨-, -, e⟩ | ⟨-, -, e⟩ <;> simp [e]

/-- `RSCLR` is no phase of a transaction, and not `FAULTED`. -/
theorem ne_rsClr_of_kind {p : Phase} (h : (p.isDrive || p.isEnHi || p.isWait || p.isEnLo || p.isFaulted) = true) :
    p ≠ .rsClr := by
  rintro rfl
  simp [Phase.isDrive, Phase.isEnHi, Phase.isWait, Phase.isEnLo, Phase.isFaulted] at h

/-- Only the `RSCLR` row marks `done`, where it returns to `IDLE`. -/
theorem exec_done_iff (h : exec i s = .next t) : t.done = true ↔ s.ph = .rsClr ∧ t.ph = .idle := by
  obtain ⟨-, -, ⟨hp, rfl⟩ | ⟨hp, rfl⟩ | ⟨hk, rfl⟩ | ⟨hk, rfl⟩ | ⟨hk, rfl⟩ | ⟨hk, rfl⟩ | ⟨hp, rfl⟩ | ⟨hk, -, rfl⟩⟩ :=
    exec_cases h
  · simp [hp]
  · simp [hp]
  · simp [ne_rsClr_of_kind, hk]
  · simp [ne_rsClr_of_kind, hk]
  · simp [ne_rsClr_of_kind, hk]
  · simp [ne_rsClr_of_kind, hk]
  · simp [hp, clearRs_done_iff]
  · simp [ne_rsClr_of_kind, hk]

/-- A step of the machine marks `done` exactly as the row of `RSCLR` does; reset, acceptance and rest do not. -/
theorem step_done_iff (h : step s = .next t) : t.done = true ↔ s.inp.rst = false ∧ s.ph = .rsClr ∧ t.ph = .idle := by
  rcases step_cases h with ⟨hr, rfl⟩ | ⟨hr, -, -, u, hu, rfl⟩ | ⟨hr, -, u, hu, rfl⟩ | ⟨-, hp, -, rfl⟩ | ⟨-, hf, -, rfl⟩
  · simp [hr]
  · simpa [hr] using exec_done_iff hu
  · simpa [hr] using exec_done_iff hu
  · simp [hp]
  · simp [ne_rsClr_of_kind, hf]

theorem after_eq_idle_iff (bw : BusWidth) (p : Phase) : p.after bw = .idle ↔ p = .rsClr := by
  cases p <;> cases bw <;> simp [Phase.after]

/-- While busy, `IDLE` is reached from `RSCLR` alone. -/
theorem rsClr_of_exec_to_idle (h : exec i s = .next t) (hb : s.busy = true) (ht : t.ph = .idle) : s.ph = .rsClr := by
  obtain ⟨hne, hf⟩ := (busy_iff s).1 hb
  have hnext : t.ph = s.ph.after s.params.busWidth := by
    cases hw : s.ph.isWait
    · rcases exec_ph h hf hw with e | ⟨-, e⟩ | ⟨-, -, e⟩
      · exact e
      · simp [ht, Phase.isFaulted] at e
      · exact absurd (e.symm.trans ht) hne
    · rcases exec_ph_of_isWait h hw with ⟨-, e⟩ | ⟨-, e⟩
      · exact e
      · exact absurd (e.symm.trans ht) hne
  exact (after_eq_idle_iff _ _).1 (hnext.symm.trans ht)

/-- `busy` rises at acceptance alone. -/
theorem accepted_of_busy_rises (h : step s = .next t) (hs : s.busy = false) (ht : t.busy = true) :
    s.ph = .idle ∧ s.inp.reqValid = true := by
  obtain ⟨hidle, hlive⟩ := (busy_iff t).1 ht
  rcases step_cases h with ⟨-, rfl⟩ | ⟨-, hp, hv, -⟩ | ⟨-, hb, -⟩ | ⟨-, hp, -, rfl⟩ | ⟨-, hf, -, rfl⟩
  · exact absurd rfl hidle
  · exact ⟨hp, hv⟩
  · simp [hs] at hb
  · exact absurd hp hidle
  · simp [hf] at hlive

/-- Settles O30: `busy` falls, without reset or fault, only by coming to `IDLE`, which is from `RSCLR`. -/
theorem doneMarksExactlyTheReturn : Obligations.DoneMarksExactlyTheReturn := by
  intro s s' h
  refine ⟨step_done_iff h, fun hb hb' hf' hr => ?_, accepted_of_busy_rises h⟩
  have hidle : s'.ph = .idle := by
    by_contra hne
    simp [(busy_iff s').2 ⟨hne, hf'⟩] at hb'
  obtain ⟨i, u, hu, rfl⟩ := exec_of_step_of_busy h hr hb
  exact (step_done_iff h).2 ⟨hr, rsClr_of_exec_to_idle hu hb hidle, hidle⟩

end Sys2Proof.Machine
end

section
/-! SUPPORT. Proofs for 10_state.md, the frames of an instruction: parameters, latches and `DLY_PENDING` (O31), the
lines it does not write (O32), and the line levels, which it never reads (O35). -/

namespace Sys2Proof.Machine

variable {s t : State} {i : Instr}

/-! ### `DLY_PENDING` -/

@[simp] theorem writeLine_dly (l : Line) (v : Level) (nxt : Phase) (s : State) :
    (s.writeLine l v nxt).dly = s.dly := by
  rcases writeLine_cases l v nxt s with ⟨-, e⟩ | ⟨-, e⟩ <;> simp [e]

@[simp] theorem setRs_dly (f : Bool) (nxt : Phase) (s : State) : (s.setRs f nxt).dly = s.dly := by
  cases f
  · rfl
  · exact writeLine_dly .rs true nxt s

@[simp] theorem drive_dly (v : DataWord) (nxt : Phase) (s : State) : (s.drive v nxt).dly = s.dly := by
  rcases drive_cases v nxt s with ⟨_, -, -, e⟩ | ⟨-, -, e⟩ | ⟨-, -, e⟩ | ⟨-, _, -, -, -, _, _, -, e⟩ <;> simp [e]

@[simp] theorem clearRs_dly (f : Bool) (s : State) : (s.clearRs f).dly = s.dly := by
  rcases clearRs_cases f s with ⟨-, e⟩ | ⟨-, -, e⟩ | ⟨-, -, e⟩ <;> simp [e]

theorem exec_dly (h : exec i s = .next t) (hw : s.ph.isWait = false) : t.dly = s.dly := by
  obtain ⟨-, -, ⟨-, rfl⟩ | ⟨-, rfl⟩ | ⟨-, rfl⟩ | ⟨-, rfl⟩ | ⟨hw', -⟩ | ⟨-, rfl⟩ | ⟨-, rfl⟩ | ⟨-, -, rfl⟩⟩ :=
    exec_cases h
  · rfl
  · exact setRs_dly _ _ s
  · exact drive_dly _ _ s
  · exact writeLine_dly _ _ _ s
  · simp [hw] at hw'
  · exact writeLine_dly _ _ _ s
  · exact clearRs_dly _ s
  · rfl

/-- Settles O31: only acceptance loads the latches, and only a `WAIT` row changes `DLY_PENDING`. -/
theorem instructionsKeepLatchesAndParameters : Obligations.InstructionsKeepLatchesAndParameters := by
  intro i s t h
  rcases exec_accepts_or_keepsRequest h with ⟨hp, rfl⟩ | hk
  · exact ⟨rfl, rfl, fun hne => absurd hp hne, exec_dly h⟩
  · exact ⟨hk.params, hk.world, fun _ => ⟨hk.byte, hk.isData⟩, exec_dly h⟩

/-! ### The lines a row writes -/

theorem writeLine_get_of_ne {l l' : Line} (hne : l' ≠ l) (v : Level) (nxt : Phase) (s : State) :
    (s.writeLine l v nxt).lines.get l' = s.lines.get l' := by
  rcases writeLine_cases l v nxt s with ⟨-, e⟩ | ⟨-, e⟩ <;> rw [e] <;> exact Lines.get_set_ne _ _ _ _ hne

theorem setRs_get {f : Bool} {l : Line} (hl : f = true → l ≠ .rs) (nxt : Phase) (s : State) :
    (s.setRs f nxt).lines.get l = s.lines.get l := by
  cases f
  · rfl
  · exact writeLine_get_of_ne (hl rfl) _ _ s

theorem clearRs_get {f : Bool} {l : Line} (hl : f = true → l ≠ .rs) (s : State) :
    (s.clearRs f).lines.get l = s.lines.get l := by
  rcases clearRs_cases f s with ⟨-, e⟩ | ⟨hf, -, e⟩ | ⟨hf, -, e⟩ <;> rw [e]
  · exact Lines.get_set_ne _ _ _ _ (hl hf)
  · exact Lines.get_set_ne s.lines .rs _ false (hl hf)

theorem d_mem_lines (x : Byte) (k : Fin 8) : Line.d k ∈ (DataWord.d x).lines :=
  (mem_lines_iff _ _).2 ⟨k, k.isLt, by simp [DataWord.line]⟩

theorem n_mem_lines (x : Nibble) (k : Fin 4) : Line.n k ∈ (DataWord.n x).lines :=
  (mem_lines_iff _ _).2 ⟨k, k.isLt, by simp [DataWord.line]⟩

/-- Loading a bank changes the lines of that bank only. -/
theorem get_setData_of_not_mem {ls : Lines} {v : DataWord} {l : Line} (hb : ls.data.variant = v.variant)
    (hl : l ∉ v.lines) : (ls.setData v).get l = ls.get l := by
  obtain ⟨r, e, w⟩ := ls
  cases l with
  | rs | en => rfl
  | d k =>
    cases v with
    | d x => exact absurd (d_mem_lines x k) hl
    | n x => cases w <;> simp_all [Lines.setData, Lines.get]
  | n k =>
    cases v with
    | d x => cases w <;> simp_all [Lines.setData, Lines.get]
    | n x => exact absurd (n_mem_lines x k) hl

theorem drive_get_of_not_mem {v : DataWord} {l : Line} (hb : s.lines.data.variant = v.variant) (hl : l ∉ v.lines)
    (nxt : Phase) : (s.drive v nxt).lines.get l = s.lines.get l := by
  have hset {l' : Line} (x : Level) (hmem : l' ∈ v.lines) : (s.lines.set l' x).get l = s.lines.get l :=
    Lines.get_set_ne _ _ _ _ fun e => hl (e ▸ hmem)
  rcases drive_cases v nxt s with ⟨l', hmem, -, e⟩ | ⟨-, -, e⟩ | ⟨-, -, e⟩ | ⟨-, j, hj, -, -, _, _, -, e⟩ <;> rw [e]
  · exact hset _ hmem
  · exact get_setData_of_not_mem hb hl
  · exact hset _ ((mem_lines_iff v _).2 ⟨j, hj, rfl⟩)

/-- A `DRIVE` phase may write every data line of its value. -/
theorem mayWrite_of_mem_lines {l : Line} (hv : (driveValue i s.ph).variant = i.busWidth) (hd : s.ph.isDrive = true)
    (hl : l ∈ (driveValue i s.ph).lines) : mayWrite i s.ph l = true := by
  obtain ⟨k, -, rfl⟩ := (mem_lines_iff _ _).1 hl
  cases h : driveValue i s.ph <;> simp_all [DataWord.line, mayWrite]

/-- Settles O32, row by row: each writes, or faults at, lines that the phase may write. -/
theorem instructionsWriteOnlyTheirLines : Obligations.InstructionsWriteOnlyTheirLines := by
  intro i s t l hb h hl
  obtain ⟨hv, hp, ⟨-, rfl⟩ | ⟨hq, rfl⟩ | ⟨hd, rfl⟩ | ⟨he, rfl⟩ | ⟨-, rfl⟩ | ⟨he, rfl⟩ | ⟨hq, rfl⟩ | ⟨-, -, rfl⟩⟩ :=
    exec_cases h
  · rfl
  · refine setRs_get (fun hf => ?_) _ s
    rintro rfl
    simp [mayWrite, hf, hq] at hl
  · have hvar := driveValue_variant hp hd
    refine drive_get_of_not_mem ?_ (fun hmem => ?_) _
    · rw [hvar, ← hv]
      simpa [State.bankOk] using hb
    · simp [mayWrite_of_mem_lines hvar hd hmem] at hl
  · refine writeLine_get_of_ne ?_ _ _ s
    rintro rfl
    simp [mayWrite, he] at hl
  · rw [waitDelay_lines]
  · refine writeLine_get_of_ne ?_ _ _ s
    rintro rfl
    simp [mayWrite, he] at hl
  · refine clearRs_get (fun hf => ?_) s
    rintro rfl
    simp [mayWrite, hf, hq] at hl
  · rfl

/-! ### Line levels are never read -/

/-- `t'` is `t` but for the levels of the lines. -/
def SameButLines (t t' : State) : Prop := ∃ ls, t' = { t with lines := ls }

section
variable (ls : Lines) (s : State)

theorem writeLine_sameButLines (l : Line) (v : Level) (nxt : Phase) :
    SameButLines (s.writeLine l v nxt) ({ s with lines := ls }.writeLine l v nxt) := by
  have hfails : { s with lines := ls }.writeFails l = s.writeFails l := rfl
  unfold State.writeLine
  rw [hfails]
  split <;> exact ⟨_, rfl⟩

theorem setRs_sameButLines (f : Bool) (nxt : Phase) :
    SameButLines (s.setRs f nxt) ({ s with lines := ls }.setRs f nxt) := by
  cases f
  · exact ⟨ls, rfl⟩
  · exact writeLine_sameButLines ls s .rs true nxt

theorem markDone_sameButLines {t t' : State} (h : SameButLines t t') : SameButLines t.markDone t'.markDone := by
  obtain ⟨ls, rfl⟩ := h
  cases hp : t.ph <;> exact ⟨ls, by simp [State.markDone, hp]⟩

theorem clearRs_sameButLines (f : Bool) :
    SameButLines (s.clearRs f) ({ s with lines := ls }.clearRs f) := by
  cases f
  · exact ⟨ls, rfl⟩
  · exact markDone_sameButLines (writeLine_sameButLines ls s .rs false .idle)

theorem answerDelay_sameButLines (n : Nat) :
    SameButLines (s.answerDelay n) ({ s with lines := ls }.answerDelay n) := by
  have hinp : { s with lines := ls }.inp = s.inp := rfl
  unfold State.answerDelay
  rw [hinp]
  cases s.inp.answer with
  | none => exact ⟨ls, rfl⟩
  | some m =>
    dsimp only
    split <;> exact ⟨ls, rfl⟩

theorem waitDelay_sameButLines (nxt : Phase) :
    SameButLines (s.waitDelay nxt) ({ s with lines := ls }.waitDelay nxt) := by
  cases hd : s.dly with
  | none => exact ⟨ls, by simp [State.waitDelay, hd, State.issueDelay]⟩
  | ack => exact ⟨ls, by simp [State.waitDelay, hd, State.consumeDelay]⟩
  | req n => simpa [State.waitDelay, hd] using answerDelay_sameButLines ls s n

/-- Which data lines fail does not depend on their levels. -/
theorem driveAll_sameButLines (v : DataWord) (nxt : Phase) :
    SameButLines (s.driveAll v nxt) ({ s with lines := ls }.driveAll v nxt) := by
  have hfails : { s with lines := ls }.writeFails = s.writeFails := rfl
  unfold State.driveAll
  rw [hfails]
  cases v.lines.filter s.writeFails <;> exact ⟨_, rfl⟩

/-- Which data lines are left to write does not depend on their levels. -/
theorem driveOne_sameButLines (v : DataWord) (nxt : Phase) :
    SameButLines (s.driveOne v nxt) ({ s with lines := ls }.driveOne v nxt) := by
  have hleft : { s with lines := ls }.undriven v = s.undriven v := rfl
  have hfails : { s with lines := ls }.writeFails = s.writeFails := rfl
  unfold State.driveOne
  rw [hleft, hfails]
  cases s.undriven v with
  | nil => exact ⟨ls, rfl⟩
  | cons k ks =>
    dsimp only
    split <;> exact ⟨_, rfl⟩

theorem drive_sameButLines (v : DataWord) (nxt : Phase) :
    SameButLines (s.drive v nxt) ({ s with lines := ls }.drive v nxt) := by
  cases ha : s.params.dataAtomic
  · simpa [State.drive, ha] using driveOne_sameButLines ls s v nxt
  · simpa [State.drive, ha] using driveAll_sameButLines ls s v nxt

end

/-- A step of an instruction answers a next state whatever the levels, the same but for the levels. -/
theorem exec_sameButLines (ls : Lines) (h : exec i s = .next t) :
    ∃ t', exec i { s with lines := ls } = .next t' ∧ SameButLines t t' := by
  obtain ⟨hv, hp, -⟩ := exec_cases h
  rw [exec_eq i hv hp] at h
  rw [exec_eq (s := { s with lines := ls }) i hv hp]
  dsimp only
  split_ifs at h ⊢
  · cases h; exact ⟨_, rfl, ls, rfl⟩
  · cases h; exact ⟨_, rfl, setRs_sameButLines ls s _ _⟩
  · cases h; exact ⟨_, rfl, drive_sameButLines ls s _ _⟩
  · cases h; exact ⟨_, rfl, writeLine_sameButLines ls s _ _ _⟩
  · cases h; exact ⟨_, rfl, waitDelay_sameButLines ls s _⟩
  · cases h; exact ⟨_, rfl, writeLine_sameButLines ls s _ _ _⟩
  · cases h; exact ⟨_, rfl, clearRs_sameButLines ls s _⟩
  · obtain ⟨hw, rfl⟩ := rest_eq_next_iff.1 h
    exact ⟨_, rest_eq_next_iff.2 ⟨hw, rfl⟩, ls, rfl⟩

/-- Settles O35, row by row of the sequencer. -/
theorem lineLevelsAreNeverRead : Obligations.LineLevelsAreNeverRead := by
  intro i s t ls h
  obtain ⟨_, h', ls', rfl⟩ := exec_sameButLines ls h
  exact ⟨ls', h'⟩

end Sys2Proof.Machine
end

section
/-! SUPPORT. Proofs for 20_memory.md, the trace: a transmit in progress has made the events of the rows performed
(O15). -/

namespace Sys2Proof.Machine

variable {s t : State} {i : Instr}

/-! ### The events of a row on infallible lines -/

theorem setRs_trace_of_infallible (hf : s.params.lineFallible = false) (f : Bool) (nxt : Phase) :
    (s.setRs f nxt).trace = s.trace ++ rsTrace f true := by
  cases f
  · simp [State.setRs, rsTrace]
  · simp [State.setRs, rsTrace, writeLine_of_infallible hf]

theorem clearRs_trace_of_infallible (hf : s.params.lineFallible = false) (f : Bool) :
    (s.clearRs f).trace = s.trace ++ rsTrace f false := by
  rcases clearRs_cases f s with ⟨rfl, e⟩ | ⟨-, h, -⟩ | ⟨rfl, -, e⟩
  · simp [e, rsTrace]
  · simp [writeFails_of_infallible hf] at h
  · simp [e, rsTrace]

theorem setRs_ph_of_infallible (hf : s.params.lineFallible = false) (f : Bool) (nxt : Phase) :
    (s.setRs f nxt).ph = nxt := by
  simpa [hf] using setRs_ph f nxt s

theorem clearRs_ph_of_infallible (hf : s.params.lineFallible = false) (f : Bool) : (s.clearRs f).ph = .idle := by
  simpa [hf] using clearRs_ph f s

/-! ### The events of the rows performed, from a phase to the next (41_eightbit.md R95, 42_fourbit.md R108) -/

section
variable (hk : KeepsRequest s t) (ht : t.ph = s.ph.after s.params.busWidth)
include hk ht

theorem soFar_after_rsSet (hp : s.ph = .rsSet) : t.soFar = s.soFar ++ rsTrace s.isData true := by
  unfold State.soFar
  rw [ht, hk.params, hk.isData, hp]
  cases s.params.busWidth <;> rfl

theorem soFar_after_drive (hd : s.ph.isDrive = true) (hb : i.byte = s.byte) :
    t.soFar = s.soFar ++ [.wd (driveValue i s.ph)] := by
  unfold State.soFar
  rw [ht, hk.params, hk.isData, hk.byte]
  cases hp : s.ph <;> simp_all [Phase.isDrive, Phase.after, driveValue]

theorem soFar_after_enHi (he : s.ph.isEnHi = true) (hd : t.dly = .none) :
    t.soFar = s.soFar ++ [.w .en true] := by
  unfold State.soFar
  rw [ht, hk.params, hk.isData, hk.byte, hd]
  cases hp : s.ph <;> simp_all [Phase.isEnHi, Phase.after, issuedDelay]

theorem soFar_after_wait (hw : s.ph.isWait = true) (hd : s.dly = .ack) : t.soFar = s.soFar := by
  unfold State.soFar
  rw [ht, hk.params, hk.isData, hk.byte, hd]
  cases hp : s.ph <;> simp_all [Phase.isWait, Phase.after, issuedDelay]

theorem soFar_after_enLo (he : s.ph.isEnLo = true) (hv : s.phaseOk = true) :
    t.soFar = s.soFar ++ [.w .en false] := by
  unfold State.phaseOk at hv
  unfold State.soFar
  rw [ht, hk.params, hk.isData, hk.byte]
  cases hp : s.ph <;> simp_all [Phase.isEnLo, Phase.after, Phase.ofVariant, txn, txnTrace, pulseTrace]

end

/-- In a `WAIT` phase, only the delay's own event is made. -/
theorem soFar_in_wait (hk : KeepsRequest s t) (ht : t.ph = s.ph) (hw : s.ph.isWait = true) {es : List Event}
    (hd : issuedDelay s.params.tPulseMs t.dly = issuedDelay s.params.tPulseMs s.dly ++ es) :
    t.soFar = s.soFar ++ es := by
  unfold State.soFar
  rw [ht, hk.params, hk.isData, hk.byte]
  cases hp : s.ph <;> simp_all [Phase.isWait]

/-- The rows performed before `RSCLR` and the event of `RSCLR` are the whole trace of the latched request. -/
theorem transmitTrace_eq_soFar (hp : s.ph = .rsClr) :
    transmitTrace s.params (reqWord s.isData s.byte) = s.soFar ++ rsTrace s.isData false := by
  unfold State.soFar
  rw [hp]
  cases h : s.params.busWidth <;> simp [transmitTrace, h, trace8, trace4, txn]

/-- An `ENHI` phase is of no other kind. -/
theorem kinds_of_isEnHi {p : Phase} (h : p.isEnHi = true) :
    p.isDrive = false ∧ p.isWait = false ∧ p.isEnLo = false := by
  cases p <;> simp_all [Phase.isDrive, Phase.isEnHi, Phase.isWait, Phase.isEnLo]

/-- An `ENLO` phase is of no other kind. -/
theorem kinds_of_isEnLo {p : Phase} (h : p.isEnLo = true) :
    p.isDrive = false ∧ p.isEnHi = false ∧ p.isWait = false := by
  cases p <;> simp_all [Phase.isDrive, Phase.isEnHi, Phase.isWait, Phase.isEnLo]

/-! ### One step -/

/-- From `s` to `t` the events `es` are made: those the rows performed have grown by, or, at the return, those the trace
of the latched request lacked. -/
def MakesRowEvents (s t : State) (es : List Event) : Prop :=
  t.trace = s.trace ++ es ∧
  (t.busy = true ∧ t.soFar = s.soFar ++ es ∨
    t.ph = .idle ∧ transmitTrace s.params (reqWord s.isData s.byte) = s.soFar ++ es)

theorem busy_after (hb : s.busy = true) (hne : s.ph ≠ .rsClr) (ht : t.ph = s.ph.after s.params.busWidth) :
    t.busy = true := by
  obtain ⟨-, hf⟩ := (busy_iff s).1 hb
  exact (busy_iff t).2 ⟨by rwa [ht, ne_eq, after_eq_idle_iff], by rwa [ht, isFaulted_after]⟩

theorem busy_congr (ht : t.ph = s.ph) : t.busy = s.busy := by
  unfold State.busy
  rw [ht]

theorem waitDelay_makesRowEvents (hb : s.busy = true) (hw : s.ph.isWait = true) :
    ∃ es, MakesRowEvents s (s.waitDelay (s.ph.after s.params.busWidth)) es := by
  have hk := waitDelay_keepsRequest (s.ph.after s.params.busWidth) s
  rcases waitDelay_cases (s.ph.after s.params.busWidth) s with ⟨hd, e⟩ | ⟨n, hd, -, e⟩ | ⟨n, -, -, e⟩ | ⟨hd, e⟩ <;>
    rw [e] at hk ⊢
  · exact ⟨[.dly s.params.tPulseMs], rfl, .inl ⟨hb, soFar_in_wait hk rfl hw (by simp [hd, issuedDelay])⟩⟩
  · exact ⟨[], by simp, .inl ⟨hb, soFar_in_wait hk rfl hw (by simp [hd, issuedDelay])⟩⟩
  · exact ⟨[], by simp, .inl ⟨hb, soFar_in_wait hk rfl hw (by simp)⟩⟩
  · have hne : s.ph ≠ .rsClr := ne_rsClr_of_kind (by simp [hw])
    exact ⟨[], by simp, .inl ⟨busy_after hb hne rfl, by simpa using soFar_after_wait hk rfl hw hd⟩⟩

/-- Every row of the sequencer on the latched request. -/
theorem exec_makesRowEvents (hf : s.params.lineFallible = false) (ha : s.params.dataAtomic = true)
    (hv : s.phaseOk = true) (hdelay : s.delayOk = true) (hb : s.busy = true) (hflag : i.isData = s.isData)
    (hbyte : i.byte = s.byte) (h : exec i s = .next t) : ∃ es, MakesRowEvents s t es := by
  obtain ⟨hidle, hlive⟩ := (busy_iff s).1 hb
  obtain ⟨hbw, -, ⟨hp, -⟩ | ⟨hp, rfl⟩ | ⟨hd, rfl⟩ | ⟨he, rfl⟩ | ⟨hw, rfl⟩ | ⟨he, rfl⟩ | ⟨hp, rfl⟩ | ⟨hfault, -⟩⟩ :=
    exec_cases h
  · exact absurd hp hidle
  · rw [hflag, ← hbw]
    have ht := setRs_ph_of_infallible hf s.isData (s.ph.after s.params.busWidth)
    exact ⟨_, setRs_trace_of_infallible hf _ _, .inl
      ⟨busy_after hb (by simp [hp]) ht, soFar_after_rsSet (setRs_keepsRequest _ _ s) ht hp⟩⟩
  · have hk := drive_keepsRequest (driveValue i s.ph) (s.ph.after i.busWidth) s
    rw [← hbw, drive_of_plain hf ha] at hk ⊢
    have hne : s.ph ≠ .rsClr := ne_rsClr_of_kind (by simp [hd])
    exact ⟨_, rfl, .inl ⟨busy_after hb hne rfl, soFar_after_drive hk rfl hd hbyte⟩⟩
  · have hk := writeLine_keepsRequest .en true (s.ph.after i.busWidth) s
    obtain ⟨-, hnw, -⟩ := kinds_of_isEnHi he
    have hdly : s.dly = .none := dly_eq_none hdelay hnw
    rw [← hbw, writeLine_of_infallible hf] at hk ⊢
    have hne : s.ph ≠ .rsClr := ne_rsClr_of_kind (by simp [he])
    exact ⟨_, rfl, .inl ⟨busy_after hb hne rfl, soFar_after_enHi hk rfl he hdly⟩⟩
  · rw [← hbw]
    exact waitDelay_makesRowEvents hb hw
  · have hk := writeLine_keepsRequest .en false (s.ph.after i.busWidth) s
    rw [← hbw, writeLine_of_infallible hf] at hk ⊢
    have hne : s.ph ≠ .rsClr := ne_rsClr_of_kind (by simp [he])
    exact ⟨_, rfl, .inl ⟨busy_after hb hne rfl, soFar_after_enLo hk rfl he hv⟩⟩
  · rw [hflag]
    exact ⟨_, clearRs_trace_of_infallible hf _, .inr ⟨clearRs_ph_of_infallible hf _, transmitTrace_eq_soFar hp⟩⟩
  · simp [hlive] at hfault

/-- Settles O15: a busy step is a row on the latched request, and appends what that row is in the trace. -/
theorem transmitInProgressFollowsItsTrace : Obligations.TransmitInProgressFollowsItsTrace := by
  intro s s' base hf ha hv hdelay hr hb htrace h
  rw [step_of_fetch hr (fetch_of_busy hb)] at h
  obtain ⟨u, hu, rfl⟩ := advanceOutcome_eq_next h
  obtain ⟨es, hes, hrow⟩ := exec_makesRowEvents hf ha hv hdelay hb (by simp) (by simp) hu
  have hmade : u.advance.trace = base ++ (s.soFar ++ es) := by
    rw [State.advance_trace, hes, htrace, List.append_assoc]
  exact hrow.imp (fun ⟨hbusy, e⟩ => ⟨hbusy, hmade.trans (congrArg _ e.symm)⟩)
    (fun ⟨hidle, e⟩ => ⟨hidle, hmade.trans (congrArg _ e.symm)⟩)

end Sys2Proof.Machine
end

section
/-! SUPPORT. Proofs for 20_memory.md, what the lines show: the pulse records of one transmit (O16), and `RS` and the
data lines in every reachable state (O24, O25). -/

namespace Sys2Proof.Machine

variable {s t : State}

/-! ### The pulse records of one transmit -/

/-- One transaction from `EN` low is one pulse record: `RS` as it stands, and the value driven. -/
theorem pulseRecords_txnTrace {ls : Lines} (hen : ls.en = false) (n : Nat) (v : DataWord) :
    pulseRecords ls (txnTrace n v) = [(ls.rs, v)] := by
  simp [txnTrace, pulseTrace, pulseRecords, Lines.apply, hen]

theorem replay_txnTrace {ls : Lines} (hen : ls.en = false) (n : Nat) (v : DataWord) :
    replay ls (txnTrace n v) = ls.setData v := by
  obtain ⟨r, e, w⟩ := ls
  cases hen
  rfl

/-- Any number of transactions from `EN` low is one pulse record for each. -/
theorem pulseRecords_flatMap_txnTrace (n : Nat) (vs : List DataWord) {ls : Lines} (hen : ls.en = false) :
    pulseRecords ls (vs.flatMap (txnTrace n)) = vs.map (ls.rs, ·) := by
  induction vs generalizing ls with
  | nil => rfl
  | cons v vs ih =>
    rw [List.flatMap_cons, pulseRecords_append, pulseRecords_txnTrace hen, replay_txnTrace hen,
      ih (ls := ls.setData v) hen]
    rfl

@[simp] theorem pulseRecords_rsTrace (ls : Lines) (f : Bool) (v : Level) : pulseRecords ls (rsTrace f v) = [] := by
  cases f <;> simp [rsTrace, pulseRecords]

/-- `RSSET` leads from `RS` low to `RS` at the flag. -/
theorem replay_rsTrace (f : Bool) (v : DataWord) :
    replay { rs := false, en := false, data := v } (rsTrace f true) = { rs := f, en := false, data := v } := by
  cases f <;> rfl

/-- The pulse records of a transmit, in either variant: one for each of its transactions, at the flag. -/
def recordsOf (bw : BusWidth) (f : Bool) (b : Byte) : List (Level × DataWord) := (txn bw b).map (f, ·)

theorem pulseRecords_transmit (bw : BusWidth) (n : Nat) (f : Bool) (b : Byte) (v : DataWord) :
    pulseRecords { rs := false, en := false, data := v }
      (rsTrace f true ++ (txn bw b).flatMap (txnTrace n) ++ rsTrace f false) = recordsOf bw f b := by
  rw [pulseRecords_append, pulseRecords_append, replay_rsTrace, pulseRecords_flatMap_txnTrace n _ rfl]
  simp [recordsOf]

theorem trace8_eq_txn (n : Nat) (f : Bool) (b : Byte) :
    trace8 n f b = rsTrace f true ++ (txn .eight b).flatMap (txnTrace n) ++ rsTrace f false := by
  simp [trace8, txn]

theorem trace4_eq_txn (n : Nat) (f : Bool) (b : Byte) :
    trace4 n f b = rsTrace f true ++ (txn .four b).flatMap (txnTrace n) ++ rsTrace f false := by
  simp [trace4, txn]

/-! ### The abstract writes of the records -/

theorem upperNibble_append_lowerNibble (b : Byte) : upperNibble b ++ lowerNibble b = b := by
  have h : b.extractLsb' 4 4 ++ b.extractLsb' 0 4 = b.extractLsb' 0 8 :=
    BitVec.extractLsb'_append_extractLsb'_eq_extractLsb' rfl
  exact h.trans BitVec.extractLsb'_eq_self

/-- The records of a transmit are one abstract write, whatever records come after. -/
theorem memWrites_recordsOf_append (bw : BusWidth) (f : Bool) (b : Byte) (rs : List (Level × DataWord)) :
    memWrites (recordsOf bw f b ++ rs) = (f, b) :: memWrites rs := by
  cases bw
  · rfl
  · exact congrArg (fun b' => (f, b') :: memWrites rs) (upperNibble_append_lowerNibble b)

theorem memWrites_recordsOf (bw : BusWidth) (f : Bool) (b : Byte) : memWrites (recordsOf bw f b) = [(f, b)] := by
  simpa [memWrites] using memWrites_recordsOf_append bw f b []

/-- Settles O16: both traces are `RSSET`, the variant's transactions and `RSCLR`. -/
theorem pulseRecordsOfOneTransmit : Obligations.PulseRecordsOfOneTransmit := by
  intro n f b v
  have h8 := pulseRecords_transmit .eight n f b v
  have h4 := pulseRecords_transmit .four n f b v
  rw [← trace8_eq_txn] at h8
  rw [← trace4_eq_txn] at h4
  refine ⟨h8, h4, ?_, ?_, ?_⟩
  · rw [h8, memWrites_recordsOf]
  · rw [h4, memWrites_recordsOf]
  · calc (upperNibble b).toNat * 16 + (lowerNibble b).toNat
        = (upperNibble b ++ lowerNibble b).toNat := by
          rw [BitVec.toNat_append, ← Nat.shiftLeft_add_eq_or_of_lt (lowerNibble b).isLt, Nat.shiftLeft_eq]
      _ = b.toNat := congrArg BitVec.toNat (upperNibble_append_lowerNibble b)

/-! ### `RS` and the data lines in every reachable state -/

theorem reachable_params {p : Params} (h : Reachable p s) : s.params = p :=
  reachable_invariant (P := fun u => u.params = p) (fun _ => rfl) (fun _ _ hu hs => (step_params hs).trans hu) h

/-- Settles O24, by the part of the invariant that speaks of `RS`. -/
theorem rsIsTheFlagThroughoutATransmit : Obligations.RsIsTheFlagThroughoutATransmit := by
  intro p s hr h hheld
  have hf : s.ph.isFaulted = false := by cases hp : s.ph <;> simp_all [Phase.rsHeld, Phase.isFaulted]
  rw [((inv_iff_liveInv hf).1 (reachable_inv hr h)).rs, hheld, Bool.true_and]

/-- Settles O25, by the part of the invariant that speaks of the data lines. -/
theorem dataLinesHoldTheTransactionsValue : Obligations.DataLinesHoldTheTransactionsValue := by
  intro p s v hr h hv
  obtain ⟨-, -, -, -, -, hdata, -⟩ := (inv_iff s).1 (reachable_inv hr h)
  rw [← reachable_params h] at hv
  exact (dataOk_iff s).1 hdata v hv

end Sys2Proof.Machine
end

section
/-! SUPPORT. Proofs for 20_memory.md, the pulses of the 4-bit variant come in pairs (O26, O27). -/

namespace Sys2Proof.Machine

variable {s t : State} {i : Instr}

/-! ### The rises of `EN` -/

/-- The number of pulses begun since reset. -/
def State.pulsesBegun (s : State) : Nat := countOf (.w .en true) s.trace

theorem pulsesBegun_of_trace_eq (h : t.trace = s.trace) : t.pulsesBegun = s.pulsesBegun := by
  rw [State.pulsesBegun, h, State.pulsesBegun]

theorem pulsesBegun_of_event (e : Event) (h : t.trace = s.trace ++ [e]) :
    t.pulsesBegun = s.pulsesBegun + if e = .w .en true then 1 else 0 := by
  simp [State.pulsesBegun, countOf, h, List.count_singleton]

theorem pulsesBegun_of_other_event {e : Event} (h : t.trace = s.trace ++ [e]) (he : e ≠ .w .en true) :
    t.pulsesBegun = s.pulsesBegun := by
  simp [pulsesBegun_of_event e h, he]

theorem writeLine_pulsesBegun {l : Line} {v : Level} {nxt : Phase}
    (hlive : (s.writeLine l v nxt).ph.isFaulted = false) :
    (s.writeLine l v nxt).pulsesBegun = s.pulsesBegun + if Event.w l v = .w .en true then 1 else 0 := by
  rcases writeLine_cases l v nxt s with ⟨-, e⟩ | ⟨-, e⟩ <;> rw [e] at hlive ⊢
  · simp [Phase.isFaulted] at hlive
  · exact pulsesBegun_of_event (.w l v) rfl

theorem setRs_pulsesBegun (f : Bool) (nxt : Phase) : (s.setRs f nxt).pulsesBegun = s.pulsesBegun := by
  rcases setRs_cases f nxt s with ⟨-, e⟩ | ⟨-, -, e⟩ | ⟨-, -, e⟩ <;> rw [e]
  · rfl
  · rfl
  · exact pulsesBegun_of_other_event (e := .w .rs true) rfl (by decide)

theorem clearRs_pulsesBegun (f : Bool) : (s.clearRs f).pulsesBegun = s.pulsesBegun := by
  rcases clearRs_cases f s with ⟨-, e⟩ | ⟨-, -, e⟩ | ⟨-, -, e⟩ <;> rw [e]
  · rfl
  · rfl
  · exact pulsesBegun_of_other_event (e := .w .rs false) rfl (by decide)

theorem drive_pulsesBegun (v : DataWord) (nxt : Phase) : (s.drive v nxt).pulsesBegun = s.pulsesBegun := by
  rcases drive_cases v nxt s with ⟨_, -, -, e⟩ | ⟨-, -, e⟩ | ⟨-, -, e⟩ | ⟨-, j, -, -, -, _, _, -, e⟩ <;> rw [e]
  · rfl
  · exact pulsesBegun_of_other_event (e := .wd v) rfl (by simp)
  · rfl
  · exact pulsesBegun_of_other_event (e := .w (v.line j) (v.bit j)) rfl (by simp [line_ne_en])

theorem waitDelay_pulsesBegun (nxt : Phase) : (s.waitDelay nxt).pulsesBegun = s.pulsesBegun := by
  rcases waitDelay_cases nxt s with ⟨-, e⟩ | ⟨_, -, -, e⟩ | ⟨_, -, -, e⟩ | ⟨-, e⟩ <;> rw [e]
  · exact pulsesBegun_of_other_event (e := .dly s.params.tPulseMs) rfl (by simp)
  · rfl
  · rfl
  · rfl

/-- A row that does not fault begins a pulse exactly in an `ENHI` phase. -/
theorem exec_pulsesBegun (h : exec i s = .next t) (hlive : t.ph.isFaulted = false) :
    t.pulsesBegun = s.pulsesBegun + if s.ph.isEnHi then 1 else 0 := by
  obtain ⟨-, -, ⟨hp, rfl⟩ | ⟨hp, rfl⟩ | ⟨hd, rfl⟩ | ⟨he, rfl⟩ | ⟨hw, rfl⟩ | ⟨he, rfl⟩ | ⟨hp, rfl⟩ | ⟨hf, -, rfl⟩⟩ :=
    exec_cases h
  · rw [hp]; rfl
  · rw [setRs_pulsesBegun, hp]; rfl
  · simp [drive_pulsesBegun, kinds_of_isDrive hd]
  · simp [writeLine_pulsesBegun hlive, he]
  · simp [waitDelay_pulsesBegun, kinds_of_isWait hw]
  · simp [writeLine_pulsesBegun hlive, kinds_of_isEnLo he]
  · rw [clearRs_pulsesBegun, hp]; rfl
  · rw [State.hold_ph] at hlive
    simp [hf] at hlive

/-! ### The parity -/

/-- A pulse begins between an even and an odd phase of the 4-bit variant, and at no other move. -/
theorem evenPulses_after {p : Phase} (hp : p.ofVariant .four = true) :
    (p.after .four).evenPulses = (p.evenPulses != p.isEnHi) := by
  cases p <;> simp_all [Phase.ofVariant, Phase.after, Phase.evenPulses, Phase.isEnHi]

theorem pulsesPaired_iff : s.pulsesPaired = true ↔
    (s.ph.isFaulted = false → (s.ph.evenPulses = true ↔ s.pulsesBegun % 2 = 0)) := by
  unfold State.pulsesPaired State.pulsesBegun
  cases s.ph.isFaulted <;> cases s.ph.evenPulses <;> simp

/-- A row stays in its phase, which then begins no pulse, or moves on, or faults. -/
theorem exec_ph_or_stays (h : exec i s = .next t) (hs : s.ph.isFaulted = false) (ht : t.ph.isFaulted = false) :
    t.ph = s.ph.after s.params.busWidth ∨ t.ph = s.ph ∧ s.ph.isEnHi = false := by
  cases hw : s.ph.isWait
  · rcases exec_ph h hs hw with e | ⟨-, hf⟩ | ⟨-, hd, e⟩
    · exact .inl e
    · simp [ht] at hf
    · exact .inr ⟨e, (kinds_of_isDrive hd).1⟩
  · exact (exec_ph_of_isWait h hw).imp And.right fun ⟨_, e⟩ => ⟨e, (kinds_of_isWait hw).2.1⟩

theorem exec_pulsesPaired (hbw : s.params.busWidth = .four) (hf : s.ph.isFaulted = false)
    (hs : s.pulsesPaired = true) (h : exec i s = .next t) : t.pulsesPaired = true := by
  obtain ⟨hv, hp, -⟩ := exec_cases h
  rw [← hv, hbw] at hp
  have hparity := pulsesPaired_iff.1 hs hf
  refine pulsesPaired_iff.2 fun hlive => ?_
  rw [exec_pulsesBegun h hlive]
  rcases exec_ph_or_stays h hf hlive with e | ⟨e, hn⟩
  · rw [e, hbw, evenPulses_after hp]
    cases s.ph.isEnHi
    · simpa using hparity
    · cases he : s.ph.evenPulses <;> simp [he] at hparity ⊢ <;> omega
  · simpa [e, hn] using hparity

@[simp] theorem pulsesPaired_advance (s : State) : s.advance.pulsesPaired = s.pulsesPaired := rfl

theorem step_pulsesPaired (hbw : s.params.busWidth = .four) (hs : s.pulsesPaired = true) (h : step s = .next t) :
    t.pulsesPaired = true := by
  rcases step_cases h with ⟨-, rfl⟩ | ⟨-, hp, -, u, hu, rfl⟩ | ⟨-, hb, u, hu, rfl⟩ | ⟨-, -, -, rfl⟩ | ⟨-, -, -, rfl⟩ <;>
    rw [pulsesPaired_advance]
  · rfl
  · exact exec_pulsesPaired hbw (by rw [hp]; rfl) hs hu
  · exact exec_pulsesPaired hbw ((busy_iff s).1 hb).2 hs hu
  · exact hs
  · exact hs

/-- Settles O26, by the step's cases; a row that is performed at all is one of the phase's variant. -/
theorem fourBitPulsesStayPaired : Obligations.FourBitPulsesStayPaired :=
  fun _ _ hbw _ hs h => step_pulsesPaired hbw hs h

/-- Settles O27: the parity holds in every reachable state, and `IDLE` is an even phase. -/
theorem fourBitPulseCountIsEvenWhenIdle : Obligations.FourBitPulseCountIsEvenWhenIdle := by
  intro p s hbw h hidle
  obtain ⟨-, hpaired⟩ : s.params.busWidth = .four ∧ s.pulsesPaired = true :=
    reachable_invariant (P := fun u => u.params.busWidth = .four ∧ u.pulsesPaired = true) (fun _ => ⟨hbw, rfl⟩)
      (fun _ _ ⟨hu, hs⟩ hstep => ⟨by rw [step_params hstep, hu], step_pulsesPaired hu hs hstep⟩) h
  exact (pulsesPaired_iff.1 hpaired (by rw [hidle]; rfl)).1 (by rw [hidle]; rfl)

end Sys2Proof.Machine
end

section
/-! SUPPORT. Proofs for 20_memory.md, the display receives the accepted requests in order (O18): what a step adds to
the pulse records is read off the phases before and after it, whether the data lines are driven at once or one by
one. -/

namespace Sys2Proof.Machine

variable {s t : State} {i : Instr}

/-! ### The pulse records that a transmit has still to make -/

/-- The values whose pulse a transmit in this phase has still to complete. -/
def Phase.valuesToCome (bw : BusWidth) (b : Byte) : Phase → List DataWord
  | .idle | .rsClr | .faulted _ => []
  | .driveLo | .enHi2 | .wait2 | .enLo2 => [.n (lowerNibble b)]
  | .rsSet | .drive | .enHi | .wait | .enLo | .driveHi | .enHi1 | .wait1 | .enLo1 => txn bw b

/-- The pulse records that the transmit in progress has still to make. -/
def State.recordsToCome (s : State) : List (Level × DataWord) :=
  (s.ph.valuesToCome s.params.busWidth s.byte).map (s.isData, ·)

@[simp] theorem recordsToCome_advance (s : State) : s.advance.recordsToCome = s.recordsToCome := rfl

theorem recordsToCome_of_idle (hp : s.ph = .idle) : s.recordsToCome = [] := by
  simp [State.recordsToCome, hp, Phase.valuesToCome]

theorem recordsToCome_accept (f : Bool) (b : Byte) (s : State) :
    (s.accept f b).recordsToCome = recordsOf s.params.busWidth f b := rfl

/-- An `ENLO` phase completes the pulse of the value that the data lines hold. -/
theorem valuesToCome_of_isEnLo {bw : BusWidth} (b : Byte) {p : Phase} (hp : p.ofVariant bw = true)
    (he : p.isEnLo = true) :
    ∃ v, p.dataHeld bw b = some v ∧ p.valuesToCome bw b = v :: (p.after bw).valuesToCome bw b := by
  cases p <;> simp_all [Phase.ofVariant, Phase.isEnLo, Phase.dataHeld, Phase.valuesToCome, Phase.after, txn]

/-- Any other phase of a transmit completes no pulse. -/
theorem valuesToCome_after (bw : BusWidth) (b : Byte) {p : Phase} (hi : p ≠ .idle) (he : p.isEnLo = false) :
    (p.after bw).valuesToCome bw b = p.valuesToCome bw b := by
  cases p <;> cases bw <;> simp_all [Phase.isEnLo, Phase.valuesToCome, Phase.after]

/-! ### The pulse records of one step -/

/-- One event at most makes a pulse record exactly when `EN` falls by it. -/
theorem pulseRecords_of_length_le_one {ls : Lines} {es : List Event} (h : es.length ≤ 1) :
    pulseRecords ls es = if ls.en = true ∧ (replay ls es).en = false then [(ls.rs, ls.data)] else [] := by
  match es with
  | [] => simp [pulseRecords]
  | [.w l v] =>
    by_cases hl : l = .en
    · subst hl
      cases v <;> simp [pulseRecords, Lines.apply]
    · simp [pulseRecords, Lines.apply, hl, Lines.set_en_of_ne]
  | [.wd v] => simp [pulseRecords, Lines.apply]
  | [.dly n] => simp [pulseRecords, Lines.apply]
  | _ :: _ :: _ => simp at h

theorem not_isFaulted_of_infallible (hs : s.inv = true) (hf : s.params.lineFallible = false) :
    s.ph.isFaulted = false := by
  obtain ⟨-, -, -, -, -, -, -, hfault, -⟩ := (inv_iff s).1 hs
  simpa [State.faultOk, hf] using hfault

/-- A row of the latched request makes just the pulse records that are then no longer to come: one where `EN` falls,
with `RS` and the data lines as the phase holds them. -/
theorem exec_recordsToCome {es : List Event} (hs : s.inv = true) (ht : t.inv = true)
    (hf : s.params.lineFallible = false) (hi : s.ph ≠ .idle) (h : exec i s = .next t) (hlen : es.length ≤ 1)
    (hlines : t.lines = replay s.lines es) :
    pulseRecords s.lines es ++ t.recordsToCome = s.recordsToCome := by
  have hk : KeepsRequest s t := (exec_accepts_or_keepsRequest h).resolve_left fun ⟨hp, _⟩ => hi hp
  have hlive := not_isFaulted_of_infallible hs hf
  have hlive' := not_isFaulted_of_infallible ht (hk.params ▸ hf)
  have hl := (inv_iff_liveInv hlive).1 hs
  have hen := ((inv_iff_liveInv hlive').1 ht).en
  unfold State.recordsToCome
  rw [pulseRecords_of_length_le_one hlen, ← hlines, hen, hl.en, hk.params, hk.byte, hk.isData]
  rcases exec_ph_or_stays h hlive hlive' with e | ⟨e, -⟩ <;> rw [e]
  · rw [enHigh_after]
    cases he : s.ph.isEnLo
    · rw [valuesToCome_after _ _ hi he]
      cases hw : s.ph.isWait <;> simp [Phase.enHigh, he, hw]
    · obtain ⟨v, hv, hcome⟩ := valuesToCome_of_isEnLo s.byte hl.phase he
      obtain ⟨-, hhi, hw⟩ := kinds_of_isEnLo he
      obtain ⟨hheld, -⟩ := rsHeld_of_transaction (p := s.ph) (by simp [he]) s.params.busWidth
      rw [hcome, hl.data v hv, hl.rs]
      simp [Phase.enHigh, he, hw, hhi, hheld]
  · simp

/-! ### Acceptance -/

theorem step_of_accepts (hr : s.inp.rst = false) (hp : s.ph = .idle) (hv : s.inp.reqValid = true) :
    step s = .next (s.accept (reqFlag s.inp.reqWord) (reqByte s.inp.reqWord)).advance := by
  have hfetch : s.fetch = some s.inp.reqWord := by simp [State.fetch, hp, hv]
  rw [step_of_fetch hr hfetch, exec_of_idle (by simp) hp]
  simp

theorem step_of_idle_without_request (hr : s.inp.rst = false) (hp : s.ph = .idle) (hv : s.inp.reqValid = false) :
    step s = .next s.hold.advance := by
  have hfetch : s.fetch = none := by simp [State.fetch, hp, hv]
  rw [step_of_noFetch hr hfetch, rest_eq_next_iff.2 ⟨by simp [hp, Phase.isFaulted], rfl⟩]
  rfl

theorem acceptedIn_of_accepts (hr : s.inp.rst = false) (hp : s.ph = .idle) (hv : s.inp.reqValid = true)
    (h : step s = .next t) (n : Nat) : acceptedIn (n + 1) s = s.inp.reqWord :: acceptedIn n t := by
  simp [acceptedIn, hr, hp, hv, h]

theorem acceptedIn_of_not_accepts (hn : s.ph = .idle → s.inp.reqValid = false) (h : step s = .next t) (n : Nat) :
    acceptedIn (n + 1) s = acceptedIn n t := by
  have hnot : ¬(s.ph = .idle ∧ s.inp.reqValid = true ∧ s.inp.rst = false) := by
    rintro ⟨hp, hv, -⟩
    simp [hn hp] at hv
  simp [acceptedIn, hnot, h]

/-! ### A run without reset -/

/-- The pulse records of a list of requests, one after the other. -/
def recordsOfRequests (bw : BusWidth) (ws : List Req9) : List (Level × DataWord) :=
  ws.flatMap fun w => recordsOf bw (reqFlag w) (reqByte w)

theorem memWrites_recordsOfRequests (bw : BusWidth) (ws : List Req9) :
    memWrites (recordsOfRequests bw ws) = ws.map fun w => (reqFlag w, reqByte w) := by
  induction ws with
  | nil => rfl
  | cons w ws ih =>
    rw [recordsOfRequests, List.flatMap_cons, memWrites_recordsOf_append, ← recordsOfRequests, ih, List.map_cons]

theorem step_world (h : step s = .next t) : t.world = s.world.tail := by
  rcases step_cases h with ⟨-, rfl⟩ | ⟨-, hp, -, u, hu, rfl⟩ | ⟨-, hb, u, hu, rfl⟩ | ⟨-, -, -, rfl⟩ | ⟨-, -, -, rfl⟩
  · rfl
  · rw [exec_of_idle (by simp) hp] at hu
    cases hu
    rfl
  · have hk := (exec_accepts_or_keepsRequest hu).resolve_left fun ⟨hp, _⟩ => ((busy_iff s).1 hb).1 hp
    rw [State.advance_world, hk.world]
  · rfl
  · rfl

theorem rst_of_world (h : ∀ u ∈ s.world, u.rst = false) : s.inp.rst = false := by
  cases hw : s.world with
  | nil => rw [inp_of_nil hw]; rfl
  | cons a is => rw [inp_of_cons hw]; exact h a (by simp [hw])

/-- One step of a run: its pulse records, those then to come and those of the later requests are those to come before
it and those of the requests from it on. -/
theorem step_records (hs : s.inv = true) (hf : s.params.lineFallible = false) (hr : s.inp.rst = false)
    (h : step s = .next t) :
    ∃ es, t.trace = s.trace ++ es ∧ t.lines = replay s.lines es ∧
      ∀ n, pulseRecords s.lines es ++ (t.recordsToCome ++ recordsOfRequests s.params.busWidth (acceptedIn n t)) =
        s.recordsToCome ++ recordsOfRequests s.params.busWidth (acceptedIn (n + 1) s) := by
  by_cases hp : s.ph = .idle
  · cases hv : s.inp.reqValid
    · have hacc := acceptedIn_of_not_accepts (fun _ => hv) h
      rw [step_of_idle_without_request hr hp hv] at h
      cases h
      exact ⟨[], by simp, rfl, fun n => by rw [hacc]; rfl⟩
    · have hacc := acceptedIn_of_accepts hr hp hv h
      rw [step_of_accepts hr hp hv] at h
      cases h
      refine ⟨[], by simp, rfl, fun n => ?_⟩
      rw [hacc, recordsToCome_of_idle hp, recordsToCome_advance, recordsToCome_accept]
      rfl
  · have hacc := acceptedIn_of_not_accepts (fun hidle => absurd hidle hp) h
    have ht := step_inv hs h
    have hf' : t.params.lineFallible = false := step_params h ▸ hf
    have hlive' := not_isFaulted_of_infallible ht hf'
    obtain ⟨i, u, hu, rfl⟩ := exec_of_step_of_busy h hr ((busy_iff s).2 ⟨hp, not_isFaulted_of_infallible hs hf⟩)
    obtain ⟨es, htrace, hlen, hlines, -⟩ := traceIsTheWholeSideEffect i s u hu
    refine ⟨es, htrace, hlines hlive', fun n => ?_⟩
    have hrecords := exec_recordsToCome hs (inv_advance u ▸ ht) hf hp hu hlen (hlines hlive')
    rw [hacc, ← List.append_assoc, recordsToCome_advance, hrecords]

/-- The pulse records of a run to `IDLE`: those to come at its start, then those of the requests accepted in it. -/
theorem run_records : ∀ (n : Nat) (s : State), s.inv = true → s.params.lineFallible = false →
    (∀ u ∈ s.world, u.rst = false) → Sys2Proof.core.run n s = .next t → t.ph = .idle →
    ∃ es, t.trace = s.trace ++ es ∧
      pulseRecords s.lines es = s.recordsToCome ++ recordsOfRequests s.params.busWidth (acceptedIn n s)
  | 0, s, _, _, _, h, hidle => by
    cases h
    exact ⟨[], by simp, by rw [recordsToCome_of_idle hidle]; rfl⟩
  | n + 1, s, hs, hf, hworld, h, hidle => by
    rw [core_run_succ] at h
    cases hstep : step s with
    | fault r => simp [hstep] at h
    | refused r => simp [hstep] at h
    | next u =>
      obtain ⟨es, htrace, hlines, hrecords⟩ := step_records hs hf (rst_of_world hworld) hstep
      have hworld' : ∀ v ∈ u.world, v.rst = false := fun v hv =>
        hworld v (List.mem_of_mem_tail (step_world hstep ▸ hv))
      obtain ⟨es', htrace', hrecords'⟩ := run_records n u (step_inv hs hstep) (step_params hstep ▸ hf) hworld'
        (by simpa [hstep] using h) hidle
      refine ⟨es ++ es', by rw [htrace', htrace, List.append_assoc], ?_⟩
      rw [pulseRecords_append, ← hlines, hrecords', step_params hstep, hrecords]

/-- Settles O18: a run from `IDLE` to `IDLE` has the pulse records of the accepted requests, and those of each request
are its one abstract write. -/
theorem displayReceivesTheAcceptedRequestsInOrder : Obligations.DisplayReceivesTheAcceptedRequestsInOrder := by
  intro n s t hs hf hp hworld h hidle
  obtain ⟨es, htrace, hrecords⟩ := run_records n s hs hf hworld h hidle
  refine ⟨es, htrace, ?_⟩
  rw [hrecords, recordsToCome_of_idle hp, List.nil_append, memWrites_recordsOfRequests]

end Sys2Proof.Machine
end

section
/-! SUPPORT. Proofs for 30_encoding.md: encoding and decoding undo each other on each variant (O1, O2, O3), and an
instance refuses the instructions of the other variant (O49). -/

namespace Sys2Proof.Machine

/-! ### An instruction and its request word -/

/-- The variant, `is_data` and the byte make up an instruction. -/
theorem instr_eq_of_fields {i j : Instr} (hv : i.busWidth = j.busWidth) (hf : i.isData = j.isData)
    (hb : i.byte = j.byte) : i = j := by
  cases i <;> cases j <;> simp_all [Instr.busWidth, Instr.isData, Instr.byte]

@[simp] theorem reqFlag_encode (i : Instr) : reqFlag (encode i) = i.isData := reqFlag_reqWord i.isData i.byte

@[simp] theorem reqByte_encode (i : Instr) : reqByte (encode i) = i.byte := reqByte_reqWord i.isData i.byte

@[simp] theorem decode_encode (i : Instr) : decode i.busWidth (encode i) = i :=
  instr_eq_of_fields (decode_busWidth _ _) (by rw [decode_isData, reqFlag_encode])
    (by rw [decode_byte, reqByte_encode])

@[simp] theorem encode_decode (bw : BusWidth) (w : Req9) : encode (decode bw w) = w := by
  rw [encode, decode_isData, decode_byte, reqWord_reqFlag_reqByte]

/-- Settles O1: the word keeps `is_data` and the byte, and the decoder is given the variant. -/
theorem decodeOfEncodeIsTheInstruction : Obligations.DecodeOfEncodeIsTheInstruction := decode_encode

/-! ### The decoder on numbers -/

theorem decodeNat_of_lt (bw : BusWidth) {n : Nat} (h : n < 512) :
    decodeNat bw n = .ok (decode bw (BitVec.ofNat 9 n)) := if_pos h

theorem decodeNat_of_ge (bw : BusWidth) {n : Nat} (h : 512 ≤ n) : decodeNat bw n = .error .notReq9 :=
  if_neg (Nat.not_lt.2 h)

theorem wellFormed_iff (bw : BusWidth) (i : Instr) : i.wellFormed bw = true ↔ i.busWidth = bw := by
  simp [Instr.wellFormed]

theorem wellFormed_decode (bw : BusWidth) (w : Req9) : (decode bw w).wellFormed bw = true :=
  (wellFormed_iff bw _).2 (decode_busWidth bw w)

/-- Settles O2: below 512 the instruction is the one decoded from the nine-bit word, which encodes to that word. -/
theorem decoderIsTotalOnRequestWords : Obligations.DecoderIsTotalOnRequestWords := by
  intro bw n
  refine ⟨fun hlt => ?_, decodeNat_of_ge bw⟩
  exact ⟨_, decodeNat_of_lt bw hlt, wellFormed_decode bw _, encode_decode bw _⟩

/-- Settles O3: each listed word is that of the instruction listed with it. -/
theorem decodesTheListedRequestWords : Obligations.DecodesTheListedRequestWords :=
  ⟨decode_encode (.wrc8 0x00), decode_encode (.wrc8 0xFF), decode_encode (.wrd8 0x00), decode_encode (.wrd8 0xFF),
    decode_encode (.wrd8 0xA5), decode_encode (.wrc4 0xA5), decode_encode (.wrd4 0x41), decode_encode (.wrc4 0x28)⟩

/-! ### The other variant's instructions -/

/-- Settles O49: an instruction that is not well-formed for an instance is one of the other variant. -/
theorem otherVariantsInstructionsAreRefused : Obligations.OtherVariantsInstructionsAreRefused := by
  intro i s hi
  have hv : s.params.busWidth ≠ i.busWidth := fun h => by simp [(wellFormed_iff _ i).2 h.symm] at hi
  exact exec_otherVariant i hv

end Sys2Proof.Machine
end

section
/-! SUPPORT. Proofs for 40_shared_transmit.md, the steps that are made (O5, O48): in a phase of its variant an
instruction answers a next state, unless the instance is faulted. -/

namespace Sys2Proof.Machine

variable {s t : State} {i : Instr}

/-- Settles O5, by the word that is fetched in `IDLE`. -/
theorem stepRunsThePresentedRequest : Obligations.StepRunsThePresentedRequest := by
  intro s i hr hp hv hi
  have hfetch : s.fetch = some s.inp.reqWord := by simp [State.fetch, hp, hv]
  rw [step_of_fetch hr hfetch, hi]

theorem rest_ne_refused (s : State) (r : Refusal) : s.rest ≠ .refused r := by
  unfold State.rest
  split
  · exact dead_ne_refused _ r
  · simp

/-- In a phase of its variant an instruction has a next state, or the instance is faulted and rests. -/
theorem exec_next_or_rests (hv : s.params.busWidth = i.busWidth) (hp : s.ph.ofVariant i.busWidth = true) :
    (∃ t, exec i s = .next t) ∨ s.ph.isFaulted = true ∧ exec i s = s.rest := by
  rw [exec_eq i hv hp]
  cases h : s.ph <;> simp [Phase.isDrive, Phase.isEnHi, Phase.isWait, Phase.isEnLo, Phase.isFaulted]

theorem exec_ne_refused (hv : s.params.busWidth = i.busWidth) (hp : s.ph.ofVariant i.busWidth = true) (r : Refusal) :
    exec i s ≠ .refused r := by
  rcases exec_next_or_rests hv hp with ⟨t, e⟩ | ⟨-, e⟩ <;> rw [e]
  · simp
  · exact rest_ne_refused s r

theorem advanceOutcome_ne_refused {o : Host.Outcome State Fault Refusal} {r : Refusal} (h : o ≠ .refused r) :
    advanceOutcome o ≠ .refused r := by
  cases o <;> simp_all [advanceOutcome]

/-- A step decodes on the instance's own variant, so only a phase of the other one could refuse it. -/
theorem step_ne_refused (hp : s.phaseOk = true) (r : Refusal) : step s ≠ .refused r := by
  cases hr : s.inp.rst
  · cases hf : s.fetch with
    | none =>
      rw [step_of_noFetch hr hf]
      exact advanceOutcome_ne_refused (rest_ne_refused s r)
    | some w =>
      rw [step_of_fetch hr hf]
      exact advanceOutcome_ne_refused (exec_ne_refused (by simp) (by rw [decode_busWidth]; exact hp) r)
  · simp [step_of_rst hr]

/-- Settles O48: by the invariant the phase is one of the variant. -/
theorem noStepIsRefused : Obligations.NoStepIsRefused := by
  intro s r hs
  obtain ⟨-, -, hp, -⟩ := (inv_iff s).1 hs
  exact step_ne_refused hp r

/-- While busy, in a phase of the variant, a step is a row on the latched request. -/
theorem step_of_busy (hr : s.inp.rst = false) (hb : s.busy = true) (hp : s.phaseOk = true) :
    ∃ u, exec (decode s.params.busWidth (reqWord s.isData s.byte)) s = .next u ∧ step s = .next u.advance := by
  obtain ⟨-, hlive⟩ := (busy_iff s).1 hb
  rcases exec_next_or_rests (i := decode s.params.busWidth (reqWord s.isData s.byte)) (s := s) (by simp)
      (by rw [decode_busWidth]; exact hp) with ⟨u, hu⟩ | ⟨hf, -⟩
  · exact ⟨u, hu, by rw [step_of_fetch hr (fetch_of_busy hb), hu, advanceOutcome_next]⟩
  · simp [hlive] at hf

/-- The row of a `WAIT` phase. -/
theorem exec_of_isWait (hv : s.params.busWidth = i.busWidth) (hp : s.ph.ofVariant i.busWidth = true)
    (hw : s.ph.isWait = true) : exec i s = .next (s.waitDelay (s.ph.after i.busWidth)) := by
  obtain ⟨hd, hhi, -⟩ := kinds_of_isWait hw
  have hidle : s.ph ≠ .idle := by
    intro e
    simp [e, Phase.isWait] at hw
  have hset : s.ph ≠ .rsSet := by
    intro e
    simp [e, Phase.isWait] at hw
  simp [exec_eq i hv hp, hidle, hset, hd, hhi, hw]

end Sys2Proof.Machine
end

section
/-! SUPPORT. Proofs for 40_shared_transmit.md R92, runs without reset (O17): what a run from idle to idle has made are
the traces of the accepted requests, and the lines are those that these traces lead to. -/

namespace Sys2Proof.Machine

variable {s t : State} {i : Instr}

/-! ### Runs without reset or fault -/

/-- A state in a run without reset, on infallible lines and with the parallel data write. It asks nothing of the resting
levels or of the mask of written data lines, as `State.inv` does. -/
structure PlainRun (s : State) : Prop where
  infallible : s.params.lineFallible = false
  atomic : s.params.dataAtomic = true
  phase : s.phaseOk = true
  delay : s.delayOk = true
  live : s.ph.isFaulted = false
  noReset : ∀ u ∈ s.world, u.rst = false

theorem PlainRun.rst (hs : PlainRun s) : s.inp.rst = false := rst_of_world hs.noReset

theorem PlainRun.busy (hs : PlainRun s) (hp : s.ph ≠ .idle) : s.busy = true := (busy_iff s).2 ⟨hp, hs.live⟩

theorem plainRun_of_idle (hf : s.params.lineFallible = false) (ha : s.params.dataAtomic = true) (hp : s.ph = .idle)
    (hd : s.dly = .none) (hw : ∀ u ∈ s.world, u.rst = false) : PlainRun s :=
  ⟨hf, ha, by simp [State.phaseOk, hp, Phase.ofVariant], delayOk_of_none hd, by simp [hp, Phase.isFaulted], hw⟩

theorem exec_live_of_infallible (hf : s.params.lineFallible = false) (hlive : s.ph.isFaulted = false)
    (h : exec i s = .next t) : t.ph.isFaulted = false := by
  cases hw : s.ph.isWait
  · rcases exec_ph h hlive hw with e | ⟨hf', -⟩ | ⟨-, -, e⟩
    · rwa [e, isFaulted_after]
    · simp [hf] at hf'
    · rwa [e]
  · rcases exec_ph_of_isWait h hw with ⟨-, e⟩ | ⟨-, e⟩
    · rwa [e, isFaulted_after]
    · rwa [e]

theorem exec_phaseOk (hs : s.ph.isFaulted = false) (ht : t.ph.isFaulted = false) (h : exec i s = .next t) :
    t.phaseOk = true := by
  obtain ⟨hv, hp, -⟩ := exec_cases h
  rw [State.phaseOk, exec_params h]
  rcases exec_ph_or_stays h hs ht with e | ⟨e, -⟩ <;> rw [e]
  · exact ofVariant_after (hv ▸ hp)
  · exact hv ▸ hp

/-- Only the issue in a `WAIT` phase makes a delay pending, and it asks for `T_PULSE_MS`. -/
theorem exec_delayOk (hd : s.delayOk = true) (h : exec i s = .next t) : t.delayOk = true := by
  cases hw : s.ph.isWait
  · exact delayOk_of_none ((exec_dly h hw).trans (dly_eq_none hd hw))
  · obtain ⟨hv, hp, -⟩ := exec_cases h
    rw [exec_of_isWait hv hp hw] at h
    cases h
    rcases waitDelay_cases (s.ph.after i.busWidth) s with ⟨-, e⟩ | ⟨_, -, -, e⟩ | ⟨_, -, -, e⟩ | ⟨-, e⟩ <;> rw [e]
    · simp [State.delayOk, hw]
    · exact hw
    · exact hd
    · exact delayOk_of_none rfl

theorem step_plainRun (hs : PlainRun s) (h : step s = .next t) : PlainRun t := by
  have hworld : ∀ u ∈ t.world, u.rst = false := fun u hu =>
    hs.noReset u (List.mem_of_mem_tail (step_world h ▸ hu))
  have hrow {u : State} {j : Instr} (hu : exec j s = .next u) (htu : t = u.advance) : PlainRun t := by
    subst htu
    have hlive := exec_live_of_infallible hs.infallible hs.live hu
    refine ⟨?_, ?_, (exec_phaseOk hs.live hlive hu :), (exec_delayOk hs.delay hu :), hlive, hworld⟩
    · rw [step_params h, hs.infallible]
    · rw [step_params h, hs.atomic]
  rcases step_cases h with ⟨hr, -⟩ | ⟨-, -, -, u, hu, e⟩ | ⟨-, -, u, hu, e⟩ | ⟨-, -, -, rfl⟩ | ⟨-, hf, -⟩
  · simp [hs.rst] at hr
  · exact hrow hu e
  · exact hrow hu e
  · exact ⟨hs.infallible, hs.atomic, hs.phase, hs.delay, hs.live, hworld⟩
  · simp [hs.live] at hf

/-! ### What a run to `IDLE` makes -/

/-- The whole trace of the transmit in progress, the events already made included. -/
def State.traceInProgress (s : State) : List Event :=
  if s.busy then transmitTrace s.params (reqWord s.isData s.byte) else []

/-- The events of the transmit in progress, those already made included, and then of the requests accepted in `n`
steps. -/
def eventsOfRun (n : Nat) (s : State) : List Event :=
  s.traceInProgress ++ (acceptedIn n s).flatMap (transmitTrace s.params)

@[simp] theorem soFar_advance (s : State) : s.advance.soFar = s.soFar := rfl

@[simp] theorem traceInProgress_advance (s : State) : s.advance.traceInProgress = s.traceInProgress := rfl

theorem soFar_of_idle (hp : s.ph = .idle) : s.soFar = [] := by
  simp [State.soFar, hp]

theorem traceInProgress_of_idle (hp : s.ph = .idle) : s.traceInProgress = [] := by
  simp [State.traceInProgress, State.busy, hp]

/-- From `IDLE` a step is silent. If it accepts, the whole trace of the request is then in progress; else the events of
the run are those of the shorter one. -/
theorem step_of_idle_events (hs : PlainRun s) (hp : s.ph = .idle) (h : step s = .next t) :
    t.trace = s.trace ∧ t.lines = s.lines ∧ t.soFar = [] ∧ ∀ n, eventsOfRun (n + 1) s = eventsOfRun n t := by
  cases hv : s.inp.reqValid
  · have hacc := acceptedIn_of_not_accepts (fun _ => hv) h
    rw [step_of_idle_without_request hs.rst hp hv] at h
    cases h
    exact ⟨rfl, rfl, soFar_of_idle hp, fun n => by rw [eventsOfRun, hacc]; rfl⟩
  · have hacc := acceptedIn_of_accepts hs.rst hp hv h
    rw [step_of_accepts hs.rst hp hv] at h
    cases h
    refine ⟨rfl, rfl, rfl, fun n => ?_⟩
    rw [eventsOfRun, eventsOfRun, hacc, traceInProgress_of_idle hp]
    simp [State.traceInProgress, State.busy]

/-- A step while busy makes the event of its row: the transmit goes on, or it has then made its whole trace. -/
theorem step_of_busy_events (hs : PlainRun s) (hp : s.ph ≠ .idle) (h : step s = .next t) :
    ∃ es, t.trace = s.trace ++ es ∧ t.lines = replay s.lines es ∧
      (t.soFar = s.soFar ++ es ∧ (∀ n, eventsOfRun (n + 1) s = eventsOfRun n t) ∨
        t.soFar = [] ∧ ∀ n, eventsOfRun (n + 1) s = s.soFar ++ es ++ eventsOfRun n t) := by
  have hb := hs.busy hp
  have hacc := acceptedIn_of_not_accepts (fun hidle => absurd hidle hp) h
  have hpar := step_params h
  have hlive' := (step_plainRun hs h).live
  obtain ⟨u, hu, hstep⟩ := step_of_busy hs.rst hb hs.phase
  cases hstep.symm.trans h
  obtain ⟨es, htrace, hrow⟩ :=
    exec_makesRowEvents hs.infallible hs.atomic hs.phase hs.delay hb (by simp) (by simp) hu
  obtain ⟨es', htrace', -, hlines, -⟩ := traceIsTheWholeSideEffect _ s u hu
  obtain rfl : es' = es := List.append_cancel_left (htrace'.symm.trans htrace)
  have hk : KeepsRequest s u := (exec_accepts_or_keepsRequest hu).resolve_left fun ⟨hidle, _⟩ => hp hidle
  refine ⟨es', htrace, hlines hlive', hrow.imp (fun ⟨hbusy, e⟩ => ⟨e, fun n => ?_⟩) fun ⟨hidle, e⟩ =>
    ⟨soFar_of_idle (by exact hidle), fun n => ?_⟩⟩
  · have hsame : u.traceInProgress = s.traceInProgress := by
      simp [State.traceInProgress, hb, hbusy, hk.params, hk.isData, hk.byte]
    rw [eventsOfRun, eventsOfRun, hacc, hpar, traceInProgress_advance, hsame]
  · rw [eventsOfRun, eventsOfRun, hacc, hpar, traceInProgress_of_idle (s := u.advance) hidle, List.nil_append,
      State.traceInProgress, if_pos hb, e]

/-- A run to `IDLE` has made the events of the transmit in progress at its start and of the requests accepted in it. -/
theorem run_events : ∀ (n : Nat) (s : State), PlainRun s → Sys2Proof.core.run n s = .next t → t.ph = .idle →
    t.dly = .none ∧ ∃ es, t.trace = s.trace ++ es ∧ t.lines = replay s.lines es ∧ s.soFar ++ es = eventsOfRun n s
  | 0, s, hs, h, hidle => by
    cases h
    refine ⟨dly_eq_none hs.delay (by simp [hidle, Phase.isWait]), [], by simp, rfl, ?_⟩
    simp [eventsOfRun, acceptedIn, soFar_of_idle hidle, traceInProgress_of_idle hidle]
  | n + 1, s, hs, h, hidle => by
    rw [core_run_succ] at h
    cases hstep : step s with
    | fault r => simp [hstep] at h
    | refused r => simp [hstep] at h
    | next u =>
      obtain ⟨hdly, es', htrace', hlines', he'⟩ :=
        run_events n u (step_plainRun hs hstep) (by simpa [hstep] using h) hidle
      refine ⟨hdly, ?_⟩
      by_cases hp : s.ph = .idle
      · obtain ⟨htrace, hlines, hsofar, he⟩ := step_of_idle_events hs hp hstep
        refine ⟨es', by rw [htrace', htrace], by rw [hlines', hlines], ?_⟩
        rw [soFar_of_idle hp, he, ← he', hsofar]
      · obtain ⟨es, htrace, hlines, hrow⟩ := step_of_busy_events hs hp hstep
        refine ⟨es ++ es', by rw [htrace', htrace, List.append_assoc], by rw [replay_append, ← hlines, hlines'], ?_⟩
        rcases hrow with ⟨hsofar, he⟩ | ⟨hsofar, he⟩ <;> rw [he, ← he', hsofar] <;> simp

/-! ### The lines that whole traces lead to -/

/-- The trace of a transmit: `RSSET`, the variant's transactions, `RSCLR`. -/
theorem transmitTrace_eq_txn (p : Params) (w : Req9) :
    transmitTrace p w = rsTrace (reqFlag w) true ++ (txn p.busWidth (reqByte w)).flatMap (txnTrace p.tPulseMs) ++
      rsTrace (reqFlag w) false := by
  unfold transmitTrace
  split
  · rename_i h
    rw [h, trace8_eq_txn]
  · rename_i h
    rw [h, trace4_eq_txn]

/-- From `EN` and `RS` low a transmit ends with both low and the last value driven on the data lines. -/
theorem replay_transmitTrace (p : Params) (w : Req9) {ls : Lines} (hen : ls.en = false) (hrs : ls.rs = false) :
    replay ls (transmitTrace p w) = ls.setData (lastDriven p.busWidth (reqByte w)) := by
  obtain ⟨r, e, v⟩ := ls
  cases hen
  cases hrs
  rw [transmitTrace_eq_txn, replay_append, replay_append, replay_rsTrace]
  cases p.busWidth <;> cases reqFlag w <;> rfl

/-- The same for any number of transmits, the last of which drives the value that stays. -/
theorem replay_flatMap_transmitTrace (p : Params) (ws : List Req9) {ls : Lines} (hen : ls.en = false)
    (hrs : ls.rs = false) :
    replay ls (ws.flatMap (transmitTrace p)) =
      ls.setData (ws.getLast?.elim ls.data fun w => lastDriven p.busWidth (reqByte w)) := by
  induction ws generalizing ls with
  | nil => rfl
  | cons w ws ih =>
    rw [List.flatMap_cons, replay_append, replay_transmitTrace p w hen hrs,
      ih (ls := ls.setData (lastDriven p.busWidth (reqByte w))) hen hrs, List.getLast?_cons]
    cases ws.getLast? <;> rfl

/-- Settles O17: at the start no transmit is in progress, and the lines at the end are those the trace leads to. -/
theorem everyRunTracesItsAcceptedRequests : Obligations.EveryRunTracesItsAcceptedRequests := by
  intro n s t hf ha hp hen hrs hd hworld h hidle
  obtain ⟨hdly, es, htrace, hlines, he⟩ := run_events n s (plainRun_of_idle hf ha hp hd hworld) h hidle
  rw [eventsOfRun, soFar_of_idle hp, traceInProgress_of_idle hp, List.nil_append, List.nil_append] at he
  rw [he, replay_flatMap_transmitTrace s.params _ hen hrs] at hlines
  rw [hlines]
  exact ⟨hen, hrs, hdly, rfl, he ▸ htrace⟩

end Sys2Proof.Machine
end

section
/-! SUPPORT. Proofs for 40_shared_transmit.md R92, a list of requests with every delay answered (O14): the phases, the
delay and the requests accepted of a run are read off its inputs alone, so that the run is seen to end. -/

namespace Sys2Proof.Machine

variable {s t : State} {i : Instr}

/-! ### The control part of a run -/

/-- What of a run the inputs decide: the phase, the delay, and the requests accepted. -/
structure Control where
  ph : Phase
  dly : Delay
  accepted : List Req9

/-- The phase and the delay of a state, after these requests. -/
def State.control (s : State) (ws : List Req9) : Control := { ph := s.ph, dly := s.dly, accepted := ws }

/-- The control part of a `WAIT` step (40_shared_transmit.md R74). -/
def Control.wait (bw : BusWidth) (ms : Nat) (c : Control) (a : Inputs) : Control :=
  match c.dly with
  | .none => { c with dly := .req ms }
  | .req n => if a.answers n then { c with dly := .ack } else c
  | .ack => { c with dly := .none, ph := c.ph.after bw }

/-- The control part of a step without reset or fault, with the parallel data write (10_state.md R23). -/
def Control.step (p : Params) (c : Control) (a : Inputs) : Control :=
  if c.ph = .idle then
    if a.reqValid then { c with ph := .rsSet, accepted := c.accepted ++ [a.reqWord] } else c
  else if c.ph.isWait then c.wait p.busWidth p.tPulseMs a
  else { c with ph := c.ph.after p.busWidth }

theorem answers_iff {a : Inputs} (hr : a.rst = false) (n : Nat) :
    a.answers n = true ↔ ∃ m, a.answer = some m ∧ n ≤ m := by
  cases h : a.answer <;> simp [Inputs.answers, hr, h]

theorem waitDelay_control (hs : PlainRun s) (ws : List Req9) :
    (s.waitDelay (s.ph.after s.params.busWidth)).control ws =
      (s.control ws).wait s.params.busWidth s.params.tPulseMs s.inp := by
  unfold Control.wait
  rcases waitDelay_cases (s.ph.after s.params.busWidth) s with ⟨hd, e⟩ | ⟨n, hd, ha, e⟩ | ⟨n, hd, ha, e⟩ | ⟨hd, e⟩ <;>
    rw [e] <;> simp only [State.control, hd]
  · rfl
  · rw [if_pos ((answers_iff hs.rst n).2 ha)]
  · rw [if_neg fun h => by
      obtain ⟨m, hm, hle⟩ := (answers_iff hs.rst n).1 h
      exact absurd (ha m hm) (Nat.not_lt.2 hle)]
    rw [← hd]
    rfl
  · rfl

/-- A row moves the control part as `Control.step` does, and accepts nothing. -/
theorem exec_control (hs : PlainRun s) (hp : s.ph ≠ .idle) (h : exec i s = .next t) (ws : List Req9) :
    t.control ws = (s.control ws).step s.params s.inp := by
  obtain ⟨hv, hphase, -⟩ := exec_cases h
  unfold Control.step
  rw [if_neg (by exact hp)]
  cases hw : s.ph.isWait
  · have hph : t.ph = s.ph.after s.params.busWidth := by
      simpa [hs.infallible, hs.atomic] using exec_ph h hs.live hw
    simp [State.control, hw, hph, exec_dly h hw]
  · rw [exec_of_isWait hv hphase hw, ← hv] at h
    cases h
    rw [waitDelay_control hs, if_pos (by exact hw)]

/-- Every step of a run is made, and its inputs decide the control part of the rest. -/
theorem step_control (hs : PlainRun s) :
    ∃ t, step s = .next t ∧ ∀ n ws, ∃ ws',
      t.control ws' = (s.control ws).step s.params s.inp ∧ ws ++ acceptedIn (n + 1) s = ws' ++ acceptedIn n t := by
  by_cases hp : s.ph = .idle
  · cases hv : s.inp.reqValid
    · have h := step_of_idle_without_request hs.rst hp hv
      refine ⟨_, h, fun n ws => ⟨ws, ?_, by rw [acceptedIn_of_not_accepts (fun _ => hv) h]⟩⟩
      simp [Control.step, State.control, hp, hv]
    · have h := step_of_accepts hs.rst hp hv
      refine ⟨_, h, fun n ws => ⟨ws ++ [s.inp.reqWord], ?_, ?_⟩⟩
      · simp [Control.step, State.control, hp, hv]
      · rw [acceptedIn_of_accepts hs.rst hp hv h, List.append_assoc, List.singleton_append]
  · obtain ⟨u, hu, h⟩ := step_of_busy hs.rst (hs.busy hp) hs.phase
    refine ⟨_, h, fun n ws => ⟨ws, exec_control hs hp hu ws, ?_⟩⟩
    rw [acceptedIn_of_not_accepts (fun hidle => absurd hidle hp) h]

/-- A run through all its inputs is made, and its control part is that of the inputs, one after the other. -/
theorem run_control : ∀ (is : List Inputs) (s : State) (ws : List Req9), PlainRun s → s.world = is →
    ∃ t, Sys2Proof.core.run is.length s = .next t ∧ t.world = [] ∧
      t.control (ws ++ acceptedIn is.length s) = is.foldl (Control.step s.params) (s.control ws)
  | [], s, ws, _, hw => ⟨s, rfl, hw, by simp [acceptedIn]⟩
  | a :: is, s, ws, hs, hw => by
    obtain ⟨u, hstep, hrest⟩ := step_control hs
    obtain ⟨ws', hc, hacc⟩ := hrest is.length ws
    obtain ⟨t, hrun, hworld, ht⟩ :=
      run_control is u ws' (step_plainRun hs hstep) (by rw [step_world hstep, hw, List.tail_cons])
    refine ⟨t, by rw [List.length_cons, core_run_of_next hstep, hrun], hworld, ?_⟩
    rw [List.length_cons, hacc, ht, hc, step_params hstep, inp_of_cons hw, List.foldl_cons]

/-! ### The inputs of a list of requests -/

/-- The inputs of one transmit lead from `IDLE` back to `IDLE`, by acceptance of its request and of no other: 9 steps of
the 8-bit variant, 15 of the 4-bit one, each evaluated. -/
theorem control_transmitInputs (p : Params) (w : Req9) (ws : List Req9) :
    (transmitInputs p w).foldl (Control.step p) ⟨.idle, .none, ws⟩ = ⟨.idle, .none, ws ++ [w]⟩ := by
  cases h : p.busWidth <;>
    simp [transmitInputs, transmitInputs.rest, transmitInputs.pulseInputs, h, Control.step, Control.wait, Phase.isWait,
      Phase.after, Inputs.quiet, Inputs.answers]

theorem control_runInputs (p : Params) (ws ws' : List Req9) :
    (runInputs p ws).foldl (Control.step p) ⟨.idle, .none, ws'⟩ = ⟨.idle, .none, ws' ++ ws⟩ := by
  induction ws generalizing ws' with
  | nil => simp [runInputs]
  | cons w ws ih =>
    rw [runInputs, List.flatMap_cons, List.foldl_append, control_transmitInputs, ← runInputs, ih, List.append_assoc,
      List.singleton_append]

theorem rst_of_mem_runInputs {p : Params} {ws : List Req9} {u : Inputs} (hu : u ∈ runInputs p ws) : u.rst = false := by
  obtain ⟨w, -, hw⟩ := List.mem_flatMap.1 hu
  have hall : ∀ v ∈ transmitInputs p w, v.rst = false := by
    cases h : p.busWidth <;>
      simp [transmitInputs, transmitInputs.rest, transmitInputs.pulseInputs, h, Inputs.quiet, or_imp, forall_and]
  exact hall u hw

/-- Settles O14: the run is through its inputs, which lead to `IDLE` and have just these requests accepted; what it has
made is then said by O17. -/
theorem runOfRequestsConcatenatesTheirTraces : Obligations.RunOfRequestsConcatenatesTheirTraces := by
  intro ws s hf ha hp hen hrs hd hworld
  have hrst : ∀ u ∈ s.world, u.rst = false := fun u hu => rst_of_mem_runInputs (hworld ▸ hu)
  obtain ⟨t, hrun, hend, hc⟩ := run_control s.world s [] (plainRun_of_idle hf ha hp hd hrst) rfl
  have hstart : s.control [] = ⟨.idle, .none, []⟩ := by rw [State.control, hp, hd]
  rw [hstart, congrArg (List.foldl _ _) hworld, control_runInputs] at hc
  obtain ⟨hidle, hdly, hacc⟩ : t.ph = .idle ∧ t.dly = .none ∧ acceptedIn s.world.length s = ws := by
    simpa [State.control] using hc
  obtain ⟨hen', hrs', -, hdata, htrace⟩ :=
    everyRunTracesItsAcceptedRequests s.world.length s t hf ha hp hen hrs hd hrst hrun hidle
  rw [hacc] at hdata htrace
  exact ⟨t, hrun, by simp [State.runOver, hend, hidle, hdly], hen', hrs', hdata, htrace⟩

end Sys2Proof.Machine
end

section
/-! SUPPORT. Proofs for 40_shared_transmit.md, what a transmit makes: the nibbles (O4), the number of events by kind
(O19), and no write of `RS` by a command (O33). -/

namespace Sys2Proof.Machine

variable {s t : State}

/-- Settles O4: the nibbles are the bits 7:4 and 3:0. -/
theorem nibblesOfAByte : Obligations.NibblesOfAByte := by
  refine fun b => ⟨upperNibble_append_lowerNibble b, ?_, ?_, fun k hk => ?_⟩
  · have hlt := b.isLt
    rw [upperNibble, BitVec.extractLsb'_toNat, Nat.shiftRight_eq_div_pow]
    omega
  · rw [lowerNibble, BitVec.extractLsb'_toNat, Nat.shiftRight_zero]
  · simp [upperNibble, lowerNibble, hk]

/-! ### The number of events -/

theorem length_txn (bw : BusWidth) (b : Byte) : (txn bw b).length = bw.nPulses := by
  cases bw <;> rfl

theorem variant_of_mem_txn {bw : BusWidth} {b : Byte} {v : DataWord} (hv : v ∈ txn bw b) : v.variant = bw := by
  cases bw with
  | eight =>
    obtain rfl := List.mem_singleton.1 hv
    rfl
  | four => rcases List.mem_pair.1 hv with rfl | rfl <;> rfl

/-- A count that adds over traces and is the same `c` for every transaction of the instance's variant is, for a
transmit, `c` times the number of pulses, and that of the writes of `RS`. -/
theorem count_transmitTrace (φ : List Event → Nat) (hnil : φ [] = 0) (happend : ∀ es es', φ (es ++ es') = φ es + φ es')
    {p : Params} {c : Nat} (htxn : ∀ v : DataWord, v.variant = p.busWidth → φ (txnTrace p.tPulseMs v) = c) (w : Req9) :
    φ (transmitTrace p w) =
      p.busWidth.nPulses * c + (φ (rsTrace (reqFlag w) true) + φ (rsTrace (reqFlag w) false)) := by
  have hvalues : ∀ vs : List DataWord, (∀ v ∈ vs, v.variant = p.busWidth) →
      φ (vs.flatMap (txnTrace p.tPulseMs)) = vs.length * c := by
    intro vs hvs
    induction vs with
    | nil => simpa using hnil
    | cons v vs ih =>
      obtain ⟨hv, hrest⟩ := List.forall_mem_cons.1 hvs
      rw [List.flatMap_cons, happend, htxn v hv, ih hrest, List.length_cons, Nat.succ_mul, Nat.add_comm]
  rw [transmitTrace_eq_txn, happend, happend, hvalues _ fun _ => variant_of_mem_txn, length_txn]
  omega

theorem countOf_append (e : Event) (es es' : List Event) : countOf e (es ++ es') = countOf e es + countOf e es' :=
  List.count_append

theorem delaysOf_append (es es' : List Event) : delaysOf (es ++ es') = delaysOf es ++ delaysOf es' := by
  induction es with
  | nil => rfl
  | cons e es ih => cases e <;> simp [delaysOf, ih]

@[simp] theorem delaysOf_rsTrace (f : Bool) (v : Level) : delaysOf (rsTrace f v) = [] := by
  cases f <;> rfl

theorem delaysOf_transmitTrace (p : Params) (w : Req9) :
    delaysOf (transmitTrace p w) = List.replicate p.busWidth.nPulses p.tPulseMs := by
  rw [transmitTrace_eq_txn, delaysOf_append, delaysOf_append, delaysOf_rsTrace, delaysOf_rsTrace]
  cases p.busWidth <;> rfl

/-- Settles O19: each kind is counted over the transactions and the writes of `RS`. -/
theorem eventCountsOfOneTransmit : Obligations.EventCountsOfOneTransmit := by
  intro p w
  have hcount (e : Event) {c : Nat} (h : ∀ v, countOf e (txnTrace p.tPulseMs v) = c) :=
    count_transmitTrace (countOf e) rfl (countOf_append e) (p := p) (fun v _ => h v) w
  refine ⟨?_, ?_, delaysOf_transmitTrace p w, fun v => ?_, ?_, ?_, ?_⟩
  · rw [hcount _ (c := 1) fun v => by simp [countOf, txnTrace, pulseTrace]]
    cases reqFlag w <;> simp [countOf, rsTrace]
  · rw [hcount _ (c := 1) fun v => by simp [countOf, txnTrace, pulseTrace]]
    cases reqFlag w <;> simp [countOf, rsTrace]
  · rw [hcount _ (c := 0) fun v => by simp [countOf, txnTrace, pulseTrace]]
    cases reqFlag w <;> cases v <;> simp [countOf, rsTrace]
  · rw [count_transmitTrace (fun es => es.countP Event.isWd) rfl (fun _ _ => List.countP_append) (c := 1)
      fun _ _ => rfl]
    cases reqFlag w <;> simp [rsTrace, Event.isWd]
  · rw [count_transmitTrace List.length rfl (fun _ _ => List.length_append) (c := 4) fun _ _ => rfl]
    cases reqFlag w <;> simp [rsTrace, Nat.mul_comm]
  · rw [count_transmitTrace (fun es => (es.map setCalls).sum) rfl (fun _ _ => by simp)
      (c := p.busWidth.nData + 2) fun v hv => by simp [txnTrace, pulseTrace, setCalls, hv]]
    cases reqFlag w <;> simp [rsTrace, setCalls]

/-! ### A command writes no `RS` -/

/-- From `s` to `t` the level of `RS` stays and no write of `RS` is appended. -/
def NoRsWrite (s t : State) : Prop :=
  t.lines.rs = s.lines.rs ∧ ∃ es, t.trace = s.trace ++ es ∧ ∀ v, Event.w .rs v ∉ es

theorem NoRsWrite.of_silent (hl : t.lines.rs = s.lines.rs) (htr : t.trace = s.trace) : NoRsWrite s t :=
  ⟨hl, [], by simp [htr], by simp⟩

theorem NoRsWrite.of_event {e : Event} (hl : t.lines.rs = s.lines.rs) (htr : t.trace = s.trace ++ [e])
    (he : ∀ v, Event.w .rs v ≠ e) : NoRsWrite s t :=
  ⟨hl, [e], htr, by simpa using he⟩

theorem raiseLineSetFault_noRsWrite {l : Line} (hl : l ≠ .rs) (s : State) : NoRsWrite s (s.raiseLineSetFault l) :=
  .of_silent (Lines.set_rs_of_ne _ _ _ hl) rfl

theorem writeLine_noRsWrite {l : Line} (hl : l ≠ .rs) (v : Level) (nxt : Phase) (s : State) :
    NoRsWrite s (s.writeLine l v nxt) := by
  rcases writeLine_cases l v nxt s with ⟨-, e⟩ | ⟨-, e⟩ <;> rw [e]
  · exact raiseLineSetFault_noRsWrite hl s
  · exact .of_event (Lines.set_rs_of_ne _ _ _ hl) rfl (by simp [hl.symm])

theorem drive_noRsWrite (v : DataWord) (nxt : Phase) (s : State) : NoRsWrite s (s.drive v nxt) := by
  rcases drive_cases v nxt s with ⟨l, hl, -, e⟩ | ⟨-, -, e⟩ | ⟨-, -, e⟩ | ⟨-, j, -, -, -, _, _, -, e⟩ <;> rw [e]
  · obtain ⟨k, -, rfl⟩ := (mem_lines_iff v l).1 hl
    exact raiseLineSetFault_noRsWrite (line_ne_rs v k) s
  · exact .of_event rfl rfl (by simp)
  · exact .of_silent rfl rfl
  · exact .of_event (Lines.set_rs_of_ne _ _ _ (line_ne_rs v j)) rfl (by simp [(line_ne_rs v j).symm])

theorem waitDelay_noRsWrite (nxt : Phase) (s : State) : NoRsWrite s (s.waitDelay nxt) := by
  rcases waitDelay_cases nxt s with ⟨-, e⟩ | ⟨_, -, -, e⟩ | ⟨_, -, -, e⟩ | ⟨-, e⟩ <;> rw [e]
  · exact .of_event rfl rfl (by simp)
  · exact .of_silent rfl rfl
  · exact .of_silent rfl rfl
  · exact .of_silent rfl rfl

/-- Settles O33, row by row: `RSSET` and `RSCLR` of a command are silent, and the other rows write other lines. -/
theorem commandsMakeNoRsEvent : Obligations.CommandsMakeNoRsEvent := by
  intro i s t hf h
  obtain ⟨-, -, ⟨-, rfl⟩ | ⟨-, rfl⟩ | ⟨-, rfl⟩ | ⟨-, rfl⟩ | ⟨-, rfl⟩ | ⟨-, rfl⟩ | ⟨-, rfl⟩ | ⟨-, -, rfl⟩⟩ :=
    exec_cases h
  · exact NoRsWrite.of_silent rfl rfl
  · rw [hf]
    exact NoRsWrite.of_silent rfl rfl
  · exact drive_noRsWrite _ _ s
  · exact writeLine_noRsWrite (by simp) _ _ s
  · exact waitDelay_noRsWrite _ s
  · exact writeLine_noRsWrite (by simp) _ _ s
  · rw [hf]
    exact NoRsWrite.of_silent rfl rfl
  · exact NoRsWrite.of_silent rfl rfl

end Sys2Proof.Machine
end

section
/-! SUPPORT. Proofs for 40_shared_transmit.md, requests and delays: the request inputs of a busy or faulted instance
have no effect (O8), and a delay that is not answered holds the sequencer (O40). -/

namespace Sys2Proof.Machine

variable {s t : State} {i : Instr}

/-! ### What a row reads of its inputs -/

/-- The state with other inputs to come. -/
def State.withWorld (w : List Inputs) (s : State) : State := { s with world := w }

@[simp] theorem withWorld_params (w : List Inputs) (s : State) : (s.withWorld w).params = s.params := rfl
@[simp] theorem withWorld_ph (w : List Inputs) (s : State) : (s.withWorld w).ph = s.ph := rfl
@[simp] theorem withWorld_dly (w : List Inputs) (s : State) : (s.withWorld w).dly = s.dly := rfl
@[simp] theorem withWorld_draws (w : List Inputs) (s : State) : (s.withWorld w).draws = s.draws := rfl

theorem accept_withWorld (w : List Inputs) (f : Bool) (b : Byte) (s : State) :
    (s.withWorld w).accept f b = (s.accept f b).withWorld w := rfl

section
variable {w : List Inputs} (hfails : (s.withWorld w).inp.fails = s.inp.fails)
include hfails

theorem writeFails_withWorld (l : Line) : (s.withWorld w).writeFails l = s.writeFails l := by
  unfold State.writeFails
  rw [hfails]
  rfl

theorem writeLine_withWorld (l : Line) (v : Level) (nxt : Phase) :
    (s.withWorld w).writeLine l v nxt = (s.writeLine l v nxt).withWorld w := by
  unfold State.writeLine
  rw [writeFails_withWorld hfails]
  split <;> rfl

theorem setRs_withWorld (f : Bool) (nxt : Phase) : (s.withWorld w).setRs f nxt = (s.setRs f nxt).withWorld w := by
  cases f
  · rfl
  · exact writeLine_withWorld hfails .rs true nxt

theorem clearRs_withWorld (f : Bool) : (s.withWorld w).clearRs f = (s.clearRs f).withWorld w := by
  unfold State.clearRs
  rw [writeLine_withWorld hfails]
  cases f
  · rfl
  · rcases writeLine_cases .rs false .idle s with ⟨-, e⟩ | ⟨-, e⟩ <;> rw [e] <;> rfl

theorem drive_withWorld (v : DataWord) (nxt : Phase) :
    (s.withWorld w).drive v nxt = (s.drive v nxt).withWorld w := by
  have hwrite : (s.withWorld w).writeFails = s.writeFails := funext (writeFails_withWorld hfails)
  have hundriven : (s.withWorld w).undriven v = s.undriven v := rfl
  unfold State.drive State.driveAll State.driveOne
  rw [hwrite, hundriven, withWorld_params, withWorld_draws]
  split
  · split <;> rfl
  · split
    · rfl
    · dsimp only
      split <;> rfl

end

theorem waitDelay_withWorld {w : List Inputs} (hanswer : (s.withWorld w).inp.answer = s.inp.answer) (nxt : Phase) :
    (s.withWorld w).waitDelay nxt = (s.waitDelay nxt).withWorld w := by
  unfold State.waitDelay State.answerDelay
  rw [hanswer, withWorld_dly]
  split
  · rfl
  · split
    · split <;> rfl
    · rfl
  · rfl

/-- A row reads of the inputs the failing lines and the answer of the delay source, and hands the inputs on. -/
theorem exec_withWorld {w : List Inputs} (hfails : (s.withWorld w).inp.fails = s.inp.fails)
    (hanswer : (s.withWorld w).inp.answer = s.inp.answer) (hlive : s.ph.isFaulted = false) (h : exec i s = .next t) :
    exec i (s.withWorld w) = .next (t.withWorld w) := by
  obtain ⟨hv, hp, -⟩ := exec_cases h
  rw [exec_eq (s := s.withWorld w) i hv hp, withWorld_ph, setRs_withWorld hfails, drive_withWorld hfails,
    writeLine_withWorld hfails, writeLine_withWorld hfails, waitDelay_withWorld hanswer, clearRs_withWorld hfails]
  rw [exec_eq i hv hp] at h
  cases hph : s.ph <;>
    simp_all [Phase.isDrive, Phase.isEnHi, Phase.isWait, Phase.isEnLo, Phase.isFaulted, accept_withWorld]

theorem advance_withWorld {w : List Inputs} (htail : w.tail = s.world.tail) : (s.withWorld w).advance = s.advance := by
  unfold State.advance State.withWorld
  rw [htail]

theorem rest_of_world_ne_nil (hw : s.world ≠ []) : s.rest = .next s.hold :=
  rest_eq_next_iff.2 ⟨fun _ => hw, rfl⟩

theorem fetch_of_isFaulted (hf : s.ph.isFaulted = true) : s.fetch = none := by
  cases hp : s.ph <;> simp_all [State.fetch, Phase.isFaulted]

/-- Out of `IDLE` a step reads of its inputs reset, the failing lines, the answer, and that there are any. -/
theorem step_withWorld {w : List Inputs} (hp : s.ph ≠ .idle) (hrst : (s.withWorld w).inp.rst = s.inp.rst)
    (hfails : (s.withWorld w).inp.fails = s.inp.fails) (hanswer : (s.withWorld w).inp.answer = s.inp.answer)
    (htail : w.tail = s.world.tail) (hw : w ≠ []) (hs : s.world ≠ []) : step (s.withWorld w) = step s := by
  cases hr : s.inp.rst <;> rw [hr] at hrst
  · cases hf : s.ph.isFaulted
    · have hb : s.busy = true := (busy_iff s).2 ⟨hp, hf⟩
      rw [step_of_fetch hr (fetch_of_busy hb), step_of_fetch hrst (fetch_of_busy (s := s.withWorld w) hb)]
      change advanceOutcome (exec (decode s.params.busWidth (reqWord s.isData s.byte)) (s.withWorld w)) = _
      cases hph : s.phaseOk
      · rw [exec_foreignPhase _ (by simp) (by rw [decode_busWidth]; exact hph),
          exec_foreignPhase _ (by simp) (by rw [decode_busWidth]; exact hph)]
      · obtain ⟨u, hu, -⟩ := step_of_busy hr hb hph
        rw [exec_withWorld hfails hanswer hf hu, hu, advanceOutcome_next, advanceOutcome_next]
        have hk : KeepsRequest s u := (exec_accepts_or_keepsRequest hu).resolve_left fun ⟨hidle, _⟩ => hp hidle
        rw [advance_withWorld (htail.trans (by rw [hk.world]))]
    · rw [step_of_noFetch hr (fetch_of_isFaulted hf), step_of_noFetch hrst (fetch_of_isFaulted (s := s.withWorld w) hf),
        rest_of_world_ne_nil hs, rest_of_world_ne_nil (s := s.withWorld w) hw, advanceOutcome_next, advanceOutcome_next]
      exact congrArg Host.Outcome.next (advance_withWorld (s := s.hold) htail)
  · rw [step_of_rst hr, step_of_rst hrst]
    exact congrArg Host.Outcome.next (advance_withWorld (s := s.applyReset) htail)

/-- Settles O8: the two states have the same inputs but for the request. -/
theorem requestInputsHaveNoEffectUnlessIdle : Obligations.RequestInputsHaveNoEffectUnlessIdle :=
  fun s a rest v w hp => step_withWorld (s := { s with world := a :: rest })
    (w := { a with reqValid := v, reqWord := w } :: rest) hp rfl rfl rfl rfl (by simp) (by simp)

/-! ### A delay that is not answered -/

theorem heldByDelay_iff : s.heldByDelay = true ↔ s.ph.isWait = true ∧ ∃ n, s.dly = .req n := by
  cases h : s.dly <;> simp [State.heldByDelay, h]

theorem noAnswer_iff (a : Inputs) : a.noAnswer = true ↔ a.rst = false ∧ a.answer = none := by
  simp [Inputs.noAnswer]

/-- Past the end of `world` nothing answers. -/
theorem inp_noAnswer {n : Nat} (h : ∀ a ∈ s.world.take (n + 1), a.noAnswer = true) : s.inp.noAnswer = true := by
  cases hw : s.world with
  | nil => rw [inp_of_nil hw]; rfl
  | cons a is => rw [inp_of_cons hw]; exact h a (by simp [hw])

theorem busy_of_isWait (hw : s.ph.isWait = true) : s.busy = true :=
  (busy_iff s).2 ⟨by intro e; simp [e, Phase.isWait] at hw, not_isFaulted_of_transaction (by simp [hw])⟩

/-- Without an answer a step of a held sequencer changes nothing. -/
theorem step_of_held (hp : s.phaseOk = true) (hheld : s.heldByDelay = true) (hno : s.inp.noAnswer = true) :
    step s = .next s.hold.advance := by
  obtain ⟨hw, n, hd⟩ := heldByDelay_iff.1 hheld
  obtain ⟨hr, ha⟩ := (noAnswer_iff _).1 hno
  have hwait (nxt : Phase) : s.waitDelay nxt = s.hold := by simp [State.waitDelay, State.answerDelay, hd, ha]
  rw [step_of_fetch hr (fetch_of_busy (busy_of_isWait hw)),
    exec_of_isWait (by simp) (by rw [decode_busWidth]; exact hp) hw, hwait, advanceOutcome_next]

theorem run_of_held : ∀ (n : Nat) (s : State), s.phaseOk = true → s.heldByDelay = true →
    (∀ a ∈ s.world.take n, a.noAnswer = true) →
    Sys2Proof.core.run n s = .next { s with world := s.world.drop n, done := s.done && n == 0 }
  | 0, s, _, _, _ => by simp
  | n + 1, s, hp, hheld, hno => by
    have hrest : ∀ a ∈ s.hold.advance.world.take n, a.noAnswer = true := by
      intro a ha
      rw [State.advance_world, State.hold_world] at ha
      refine hno a ?_
      cases hw : s.world with
      | nil => simp [hw] at ha
      | cons b is => exact List.mem_cons_of_mem b (by simpa [hw] using ha)
    rw [core_run_of_next (step_of_held hp hheld (inp_noAnswer hno)), run_of_held n s.hold.advance hp hheld hrest]
    simp [State.hold, State.advance]

/-- Settles O40: each of the `n` steps holds, and in a `WAIT` phase the invariant has `EN` high. -/
theorem unansweredDelayHoldsTheSequencer : Obligations.UnansweredDelayHoldsTheSequencer := by
  intro n s hs hheld hno
  obtain ⟨hw, -⟩ := heldByDelay_iff.1 hheld
  have hl := (inv_iff_liveInv (not_isFaulted_of_transaction (by simp [hw]))).1 hs
  exact ⟨run_of_held n s hl.phase hheld hno, hl.en.trans (enHigh_of_isWait hw), busy_of_isWait hw⟩

end Sys2Proof.Machine
end

section
/-! SUPPORT. Proofs for 40_shared_transmit.md R73, a data write that fails: the parallel one (O42), and the one line by
line (O51). -/

namespace Sys2Proof.Machine

variable {s t : State} {i : Instr}

/-- The row of a `DRIVE` phase, with the value that the statements name for it. -/
theorem exec_of_driveRow {v : DataWord} (hv : s.params.busWidth = i.busWidth)
    (hd : s.ph = .drive ∧ v = .d i.byte ∨ s.ph = .driveHi ∧ v = .n (upperNibble i.byte)
      ∨ s.ph = .driveLo ∧ v = .n (lowerNibble i.byte)) (hvar : v.variant = i.busWidth) :
    exec i s = .next (s.drive v (s.ph.after i.busWidth)) := by
  have hrow : s.ph.ofVariant i.busWidth = true ∧ s.ph.isDrive = true ∧ driveValue i s.ph = v := by
    rcases hd with ⟨hp, rfl⟩ | ⟨hp, rfl⟩ | ⟨hp, rfl⟩ <;> rw [hp, ← hvar] <;> exact ⟨rfl, rfl, rfl⟩
  obtain ⟨hp, hdrive, rfl⟩ := hrow
  exact exec_of_isDrive hv hp hdrive

theorem raiseLineSetFault_get_of_ne {l l' : Line} (hne : l' ≠ l) (s : State) :
    (s.raiseLineSetFault l).lines.get l' = s.lines.get l' :=
  Lines.get_set_ne _ _ _ _ hne

/-- Settles O42: a data line fails, so the parallel write is fault entry at one that does. -/
theorem failedDataWriteEntersTheFault : Obligations.FailedDataWriteEntersTheFault := by
  intro i s k v hv hf ha hd hvar hk hfails
  have hline : v.line k ∈ v.lines := (mem_lines_iff v _).2 ⟨k, hvar ▸ hk, rfl⟩
  obtain ⟨l, hl, hfail, e⟩ : ∃ l, l ∈ v.lines ∧ s.writeFails l = true ∧
      s.drive v (s.ph.after i.busWidth) = s.raiseLineSetFault l := by
    rcases drive_cases v (s.ph.after i.busWidth) s with h | ⟨-, hnone, -⟩ | ⟨ha', -⟩ | ⟨ha', -⟩
    · exact h
    · simpa [(writeFails_iff _).2 ⟨hf, hfails⟩] using hnone _ hline
    · simp [ha] at ha'
    · simp [ha] at ha'
  refine ⟨s.raiseLineSetFault l, l, by rw [exec_of_driveRow hv hd hvar, e], hl, ((writeFails_iff l).1 hfail).2,
    rfl, rfl, rfl, rfl, rfl, rfl, fun l' hne => raiseLineSetFault_get_of_ne hne s⟩

/-- Settles O51: every line left to write fails, so the one that is picked does. -/
theorem failedSingleDataWriteEntersTheFault : Obligations.FailedSingleDataWriteEntersTheFault := by
  intro i s v hv hf ha hd hvar hleft hfails
  obtain ⟨j, hj, e⟩ : ∃ j, j ∈ s.undriven v ∧
      s.drive v (s.ph.after i.busWidth) = s.raiseLineSetFault (v.line j) := by
    rw [State.drive, ha, if_neg Bool.false_ne_true]
    rcases driveOne_cases v (s.ph.after i.busWidth) s with ⟨hnil, -⟩ | ⟨j, hj, -, e⟩ | ⟨j, hj, hok, -⟩
    · obtain ⟨k, hk, hun⟩ := hleft
      have hmem : k ∈ s.undriven v := (mem_undriven v s k).2 ⟨hvar ▸ hk, hun⟩
      simp [hnil] at hmem
    · exact ⟨j, hj, e⟩
    · obtain ⟨hlt, hun⟩ := (mem_undriven v s j).1 hj
      simp [(writeFails_iff _).2 ⟨hf, hfails j (hvar ▸ hlt) hun⟩] at hok
  obtain ⟨hlt, hun⟩ := (mem_undriven v s j).1 hj
  exact ⟨s.raiseLineSetFault (v.line j), j, by rw [exec_of_driveRow hv hd hvar, e], hvar ▸ hlt, hun,
    rfl, rfl, rfl, rfl, rfl, rfl, rfl, rfl, rfl, fun l' hne => raiseLineSetFault_get_of_ne hne s⟩

end Sys2Proof.Machine
end

section
/-! SUPPORT. Proofs for 41_eightbit.md R98 and 42_fourbit.md R115, the drive of the data lines one by one: a single
step (O50), and the whole `DRIVE` phase (O11). -/

namespace Sys2Proof.Machine

variable {s t : State} {i : Instr} {v : DataWord}

/-! ### One step -/

/-- A `DRIVE` phase of `i` and the value it drives. -/
def DrivePhase (i : Instr) (v : DataWord) (p : Phase) : Prop :=
  p = .drive ∧ v = .d i.byte ∨ p = .driveHi ∧ v = .n (upperNibble i.byte) ∨ p = .driveLo ∧ v = .n (lowerNibble i.byte)

/-- `t` is `s` with data line `j` at its bit of `v`, that write in the trace, and its inputs not yet consumed. -/
def WritesDataLine (v : DataWord) (j : Nat) (ph : Phase) (driven : BitVec 8) (s t : State) : Prop :=
  t = { s with
    lines := s.lines.set (v.line j) (v.bit j)
    trace := s.trace ++ [.w (v.line j) (v.bit j)]
    ph := ph, driven := driven, draws := s.draws + 1, done := false }

/-- With a line left to write, a step of a `DRIVE` phase is fault entry at such a line, or the write of one: the last,
on which the phase moves on, or not. -/
theorem exec_writes_one_line (hv : s.params.busWidth = i.busWidth) (ha : s.params.dataAtomic = false)
    (hd : DrivePhase i v s.ph) (hvar : v.variant = i.busWidth) (hleft : ∃ k, k ∈ s.undriven v) :
    ∃ t j, exec i s = .next t ∧ j ∈ s.undriven v ∧
      (s.writeFails (v.line j) = true ∧ t = s.raiseLineSetFault (v.line j) ∨
        s.writeFails (v.line j) = false ∧
          ((s.undriven v).length = 1 ∧ WritesDataLine v j (s.ph.after i.busWidth) 0 s t ∨
            2 ≤ (s.undriven v).length ∧ WritesDataLine v j s.ph (setBit s.driven j true) s t)) := by
  have hexec : exec i s = .next (s.driveOne v (s.ph.after i.busWidth)) := by
    rw [exec_of_driveRow hv hd hvar, State.drive, ha, if_neg Bool.false_ne_true]
  rcases driveOne_cases v (s.ph.after i.busWidth) s with
    ⟨hnil, -⟩ | ⟨j, hj, hfail, e⟩ | ⟨j, hj, hok, ph, m, hlast, e⟩
  · simp [hnil] at hleft
  · exact ⟨_, j, hexec, hj, .inl ⟨hfail, e⟩⟩
  · refine ⟨_, j, hexec, hj, .inr ⟨hok, hlast.imp ?_ ?_⟩⟩
    · rintro ⟨hlen, rfl, rfl⟩
      exact ⟨hlen, e⟩
    · rintro ⟨hlen, rfl, rfl⟩
      exact ⟨hlen, e⟩

/-- The mask after line `j` is written. -/
theorem driven_setBit {j : Nat} (hj : j ∈ s.undriven v) (k : Nat) :
    (setBit s.driven j true).getLsbD k = (s.driven.getLsbD k || k == j) := by
  have hj8 : j < 8 := lt_of_lt_of_le ((mem_undriven v s j).1 hj).1 (by cases v.variant <;> decide)
  rw [setBit_getLsbD _ _ _ _ hj8]
  by_cases hkj : k = j <;> simp [hkj]

/-- Settles O50: the line picked is one left to write; whether it was the last says where the phase goes. -/
theorem lineByLineStepWritesOneLineOrFaultsAtIt : Obligations.LineByLineStepWritesOneLineOrFaultsAtIt := by
  intro i s v hv ha hd hvar ⟨k, hk, hun⟩
  have hleft : k ∈ s.undriven v := (mem_undriven v s k).2 ⟨hvar ▸ hk, hun⟩
  obtain ⟨t, j, hexec, hj, hrow⟩ := exec_writes_one_line hv ha hd hvar ⟨k, hleft⟩
  obtain ⟨hlt, hjun⟩ := (mem_undriven v s j).1 hj
  refine ⟨j, hvar ▸ hlt, hjun, fun hfail => ?_, fun hok => ?_⟩
  · obtain ⟨-, rfl⟩ := hrow.resolve_right fun ⟨hok, _⟩ => by simp [hfail] at hok
    exact ⟨_, hexec, rfl, rfl, rfl, rfl, rfl, rfl, fun l' hne => raiseLineSetFault_get_of_ne hne s⟩
  · obtain ⟨-, ⟨hlen, rfl⟩ | ⟨hlen, rfl⟩⟩ := hrow.resolve_left fun ⟨hfail, _⟩ => by simp [hok] at hfail
    · refine ⟨_, 0, _, hexec, fun ⟨k', hk', hne, hun'⟩ => ?_, fun _ => ⟨rfl, rfl⟩⟩
      simp [driven_of_undriven_length_one hj hlen (hvar ▸ hk') hne] at hun'
    · refine ⟨s.ph, _, _, hexec, fun _ => ⟨rfl, fun k _ => driven_setBit hj k⟩, fun hall => ?_⟩
      obtain ⟨k', hk', hne⟩ := exists_undriven_ne j hlen
      obtain ⟨hlt', hun'⟩ := (mem_undriven v s k').1 hk'
      simp [hall k' (hvar ▸ hlt') hne] at hun'

/-! ### The whole phase -/

theorem runInstr_succ_of_next (h : exec i s = .next t) (n : Nat) :
    runInstr (n + 1) i s = runInstr n i t.advance := by
  simp [runInstr, h]

theorem undriven_nodup (v : DataWord) (s : State) : (s.undriven v).Nodup := List.nodup_range.filter _

/-- Marking line `j` as written takes it off the lines left to write. -/
theorem undriven_of_setBit {j : Nat} (hj : j ∈ s.undriven v) (ht : t.driven = setBit s.driven j true) :
    t.undriven v = (s.undriven v).erase j := by
  rw [(undriven_nodup v s).erase_eq_filter, State.undriven, State.undriven, List.filter_filter]
  refine List.filter_congr fun k _ => ?_
  rw [ht, driven_setBit hj]
  simp [Bool.and_comm, bne]

/-- None of the data lines of `v` fails in the next `n` steps. -/
def State.dataLinesHold (n : Nat) (v : DataWord) (s : State) : Prop :=
  s.params.lineFallible = true → ∀ a ∈ s.world.take n, ∀ l ∈ v.lines, l ∉ a.fails

theorem writeFails_of_dataLinesHold {n : Nat} (h : s.dataLinesHold (n + 1) v) {l : Line} (hl : l ∈ v.lines) :
    s.writeFails l = false := by
  rw [← Bool.not_eq_true, writeFails_iff]
  rintro ⟨hf, hfails⟩
  cases hw : s.world with
  | nil => simp [inp_of_nil hw, Inputs.quiet] at hfails
  | cons a is => exact h hf a (by simp [hw]) l hl (inp_of_cons hw ▸ hfails)

theorem dataLinesHold_of_tail {n : Nat} (h : s.dataLinesHold (n + 1) v) (hp : t.params = s.params)
    (hw : t.world = s.world.tail) : t.dataLinesHold n v := by
  intro hf a ha
  refine h (hp ▸ hf) a ?_
  rw [hw] at ha
  cases hs : s.world with
  | nil => simp [hs] at ha
  | cons b is => exact List.mem_cons_of_mem b (by simpa [hs] using ha)

/-- A line-by-line drive of `v` in progress: the mask says which lines hold their bit already, and not all do. -/
structure LineByLineDrive (i : Instr) (v : DataWord) (s : State) : Prop where
  width : s.params.busWidth = i.busWidth
  lineByLine : s.params.dataAtomic = false
  phase : DrivePhase i v s.ph
  variant : v.variant = i.busWidth
  bank : s.lines.data.variant = v.variant
  mask : s.drivenHold v = true

/-- The event of the write of one data line. -/
def DataWord.writeOf (v : DataWord) (k : Nat) : Event := .w (v.line k) (v.bit k)

/-- From `s` the phase of a drive of `v` has ended after `n` steps: the events `es` were made, the lines hold `v`. -/
def DriveEnds (i : Instr) (v : DataWord) (s : State) (n : Nat) (es : List Event) : Prop :=
  ∃ draws, runInstr n i s = .next { s with
    lines := { s.lines with data := v }
    trace := s.trace ++ es, ph := s.ph.after i.busWidth, done := false, driven := 0, draws := draws
    world := s.world.drop n }

theorem driveEnds_of_last {j : Nat} (hs : LineByLineDrive i v s) (hj : j ∈ s.undriven v)
    (h1 : (s.undriven v).length = 1) (hexec : exec i s = .next t)
    (ht : WritesDataLine v j (s.ph.after i.busWidth) 0 s t) : DriveEnds i v s 1 [v.writeOf j] := by
  subst ht
  refine ⟨s.draws + 1, ?_⟩
  rw [runInstr_succ_of_next hexec, Lines.set_line, setLine_eq_of_last hs.bank hj h1 hs.mask, List.drop_one]
  rfl

theorem driveEnds_of_step {j n : Nat} {es : List Event} (hexec : exec i s = .next t)
    (ht : WritesDataLine v j s.ph (setBit s.driven j true) s t) (h : DriveEnds i v t.advance n es) :
    DriveEnds i v s (n + 1) (v.writeOf j :: es) := by
  subst ht
  obtain ⟨draws, h⟩ := h
  refine ⟨draws, ?_⟩
  rw [runInstr_succ_of_next hexec, h, Lines.set_line]
  simp [State.advance, DataWord.writeOf]

/-- Writing one of at least two lines left leaves a drive of the others in progress. -/
theorem lineByLineDrive_of_step {j : Nat} (hs : LineByLineDrive i v s) (hj : j ∈ s.undriven v)
    (h2 : 2 ≤ (s.undriven v).length) (ht : WritesDataLine v j s.ph (setBit s.driven j true) s t) :
    LineByLineDrive i v t.advance := by
  have hlt : j < v.variant.nData := ((mem_undriven v s j).1 hj).1
  subst ht
  refine { hs with bank := ?_, mask := ?_ }
  · simpa using hs.bank
  · exact drivenHold_of_write_one hs.lineByLine hs.bank hlt h2 hs.mask rfl
      (congrArg Lines.data (Lines.set_line s.lines v j (v.bit j))) rfl

/-- A drive in progress writes each line left to write once, in some order, and ends. -/
theorem lineByLineDrive_ends : ∀ (n : Nat) (s : State), LineByLineDrive i v s → (s.undriven v).length = n →
    s.dataLinesHold n v → ∃ es, es.Perm ((s.undriven v).map v.writeOf) ∧ DriveEnds i v s n es
  | 0, s, hs, hn, _ => by
    obtain ⟨-, ⟨k, hk⟩, -⟩ := (drivenHold_iff s v).1 hs.mask
    simp [List.length_eq_zero_iff.1 hn] at hk
  | n + 1, s, hs, hn, hok => by
    obtain ⟨-, hleft, -⟩ := (drivenHold_iff s v).1 hs.mask
    obtain ⟨t, j, hexec, hj, hrow⟩ := exec_writes_one_line hs.width hs.lineByLine hs.phase hs.variant hleft
    have hline : v.line j ∈ v.lines := (mem_lines_iff v _).2 ⟨j, ((mem_undriven v s j).1 hj).1, rfl⟩
    have hperm : (s.undriven v).Perm (j :: (s.undriven v).erase j) := List.perm_cons_erase hj
    rcases hrow with ⟨hfail, -⟩ | ⟨-, ⟨h1, ht⟩ | ⟨h2, ht⟩⟩
    · simp [writeFails_of_dataLinesHold hok hline] at hfail
    · obtain rfl : n = 0 := by omega
      have hnil : (s.undriven v).erase j = [] := by
        rw [← List.length_eq_zero_iff, List.length_erase_of_mem hj, h1]
      exact ⟨_, (hnil ▸ hperm.map v.writeOf).symm, driveEnds_of_last hs hj h1 hexec ht⟩
    · have hu : t.advance.undriven v = (s.undriven v).erase j := undriven_of_setBit hj (by rw [ht]; rfl)
      obtain ⟨es, hes, hend⟩ := lineByLineDrive_ends n t.advance (lineByLineDrive_of_step hs hj h2 ht)
        (by rw [hu, List.length_erase_of_mem hj, hn, Nat.add_sub_cancel])
        (dataLinesHold_of_tail hok (by rw [ht]; rfl) (by rw [ht]; rfl))
      refine ⟨_, ?_, driveEnds_of_step hexec ht hend⟩
      exact ((hu ▸ hes).cons _).trans (hperm.map v.writeOf).symm

/-- Settles O11: with an empty mask every line is left to write, and the drive ends with the mask empty again. -/
theorem lineByLineDriveWritesEveryLineOnce : Obligations.LineByLineDriveWritesEveryLineOnce := by
  intro i s v hv ha hok hbank hzero hd hvar
  have hu : s.undriven v = List.range i.busWidth.nData := hvar ▸ undriven_of_zero v hzero
  obtain ⟨es, hes, draws, hrun⟩ := lineByLineDrive_ends i.busWidth.nData s
    ⟨hv, ha, hd, hvar, hbank.trans hvar.symm, drivenHold_of_zero v hzero⟩ (by rw [hu, List.length_range]) hok
  rw [← hzero] at hrun
  exact ⟨es, draws, hu ▸ hes, hrun⟩

end Sys2Proof.Machine
end

section
/-! SUPPORT. Proofs for 41_eightbit.md R95, the rows of the sequencer: each is an equation for both variants, of which
the table of the 8-bit one (O9) is read off. -/

namespace Sys2Proof.Machine

variable {s t : State} {i : Instr}

/-! ### The row of each phase -/

theorem exec_of_rsSet (hv : s.params.busWidth = i.busWidth) (hp : s.ph = .rsSet) :
    exec i s = .next (s.setRs i.isData (s.ph.after i.busWidth)) := by
  rw [exec_eq i hv (by rw [hp]; rfl), if_neg (by simp [hp]), if_pos hp]

theorem exec_of_isEnHi (hv : s.params.busWidth = i.busWidth) (hp : s.ph.ofVariant i.busWidth = true)
    (he : s.ph.isEnHi = true) : exec i s = .next (s.writeLine .en true (s.ph.after i.busWidth)) := by
  rw [exec_eq i hv hp]
  cases h : s.ph <;> simp_all [Phase.isEnHi, Phase.isDrive]

theorem exec_of_isEnLo (hv : s.params.busWidth = i.busWidth) (hp : s.ph.ofVariant i.busWidth = true)
    (he : s.ph.isEnLo = true) : exec i s = .next (s.writeLine .en false (s.ph.after i.busWidth)) := by
  rw [exec_eq i hv hp]
  cases h : s.ph <;> simp_all [Phase.isEnLo, Phase.isDrive, Phase.isEnHi, Phase.isWait]

theorem exec_of_rsClr (hv : s.params.busWidth = i.busWidth) (hp : s.ph = .rsClr) :
    exec i s = .next (s.clearRs i.isData) := by
  rw [exec_eq i hv (by rw [hp]; rfl)]
  simp [hp, Phase.isDrive, Phase.isEnHi, Phase.isWait, Phase.isEnLo]

/-! ### What a row answers where its write does not fail -/

theorem setRs_of_succeeds {f : Bool} (h : f = true → s.writeFails .rs = false) (nxt : Phase) :
    s.setRs f nxt = { s with
      lines := { s.lines with rs := f || s.lines.rs }
      trace := s.trace ++ rsTrace f true, ph := nxt, done := false } := by
  rcases setRs_cases f nxt s with ⟨rfl, e⟩ | ⟨rfl, hfail, -⟩ | ⟨rfl, -, e⟩
  · simp [e, State.goto, rsTrace]
  · simp [h rfl] at hfail
  · simp [e, rsTrace]

theorem clearRs_of_succeeds {f : Bool} (h : f = true → s.writeFails .rs = false) :
    s.clearRs f = { s with
      lines := { s.lines with rs := !f && s.lines.rs }
      trace := s.trace ++ rsTrace f false, ph := .idle, done := true } := by
  rcases clearRs_cases f s with ⟨rfl, e⟩ | ⟨rfl, hfail, -⟩ | ⟨rfl, -, e⟩
  · simp [e, rsTrace]
  · simp [h rfl] at hfail
  · simp [e, rsTrace]

/-- Every `WAIT` phase is a `WAIT` row: issue, held or answered, consume. -/
theorem waitRow_of_isWait (hv : s.params.busWidth = i.busWidth) (hp : s.ph.ofVariant i.busWidth = true)
    (hw : s.ph.isWait = true) : WaitRow i s (s.ph.after i.busWidth) := by
  have hexec := exec_of_isWait hv hp hw
  refine ⟨fun hd => ?_, fun n hd => ⟨fun m hm hle => ?_, fun m hm hlt => ?_, fun hm => ?_⟩, fun hd => ?_⟩ <;>
    rw [hexec]
  · simp [State.waitDelay, hd, State.issueDelay]
  · simp [State.waitDelay, hd, State.answerDelay, hm, hle]
  · simp [State.waitDelay, hd, State.answerDelay, hm, Nat.not_le.2 hlt, State.hold]
  · simp [State.waitDelay, hd, State.answerDelay, hm, State.hold]
  · simp [State.waitDelay, hd, State.consumeDelay]

/-! ### The table of the 8-bit variant -/

@[simp] theorem instr8_busWidth (f : Bool) (b : Byte) : (instr8 f b).busWidth = .eight := by cases f <;> rfl
@[simp] theorem instr8_isData (f : Bool) (b : Byte) : (instr8 f b).isData = f := by cases f <;> rfl
@[simp] theorem instr8_byte (f : Bool) (b : Byte) : (instr8 f b).byte = b := by cases f <;> rfl

/-- Settles O9, row by row. -/
theorem eightBitSequencerTable : Obligations.EightBitSequencerTable := by
  intro f b s hbw
  have hv : s.params.busWidth = (instr8 f b).busWidth := by rw [hbw, instr8_busWidth]
  refine ⟨fun hp => ?_, fun hp hok => ?_, fun hp ha hok => ?_, fun hp hok => ?_, fun hp => ?_, fun hp hok => ?_,
    fun hp hok => ?_⟩
  · simp [exec_of_idle hv hp, State.accept]
  · rw [exec_of_rsSet hv hp, instr8_isData, setRs_of_succeeds hok, hp, instr8_busWidth]
    rfl
  · have hlines : ∀ l ∈ (DataWord.d b).lines, s.writeFails l = false := by
      intro l hl
      obtain ⟨k, -, rfl⟩ := (mem_lines_iff _ l).1 hl
      exact hok _
    rw [exec_of_driveRow hv (.inl ⟨hp, rfl⟩) (by simp), instr8_byte, drive_of_succeeds ha hlines, hp]
    rfl
  · rw [exec_of_isEnHi hv (by simp [hp, Phase.ofVariant]) (by simp [hp, Phase.isEnHi]), writeLine_of_succeeds hok, hp]
    rfl
  · have hrow := waitRow_of_isWait hv (by simp [hp, Phase.ofVariant]) (by simp [hp, Phase.isWait])
    rwa [hp] at hrow
  · rw [exec_of_isEnLo hv (by simp [hp, Phase.ofVariant]) (by simp [hp, Phase.isEnLo]), writeLine_of_succeeds hok, hp]
    rfl
  · rw [exec_of_rsClr hv hp, instr8_isData, clearRs_of_succeeds hok]
    rfl

end Sys2Proof.Machine
end

section
/-! SUPPORT. Proofs for 41_eightbit.md R96: the steps of a transmit on infallible lines, its transactions, and the run
of an 8-bit transmit from acceptance to the return (O12). -/

namespace Sys2Proof.Machine

variable {s t : State} {i : Instr}

/-! ### The latched request -/

/-- The request that a busy step works on, as an instruction. -/
def State.latched (s : State) : Instr := decode s.params.busWidth (reqWord s.isData s.byte)

@[simp] theorem latched_busWidth (s : State) : s.latched.busWidth = s.params.busWidth := by simp [State.latched]
@[simp] theorem latched_isData (s : State) : s.latched.isData = s.isData := by simp [State.latched]
@[simp] theorem latched_byte (s : State) : s.latched.byte = s.byte := by simp [State.latched]

theorem step_of_exec_latched (hr : s.inp.rst = false) (hb : s.busy = true) (h : exec s.latched s = .next t) :
    step s = .next t.advance := by
  rw [step_of_fetch hr (fetch_of_busy hb)]
  exact congrArg advanceOutcome h

theorem busy_of_transaction (h : (s.ph.isDrive || s.ph.isEnHi || s.ph.isWait || s.ph.isEnLo) = true) :
    s.busy = true :=
  (busy_iff s).2 ⟨by intro e; simp [e, Phase.isDrive, Phase.isEnHi, Phase.isWait, Phase.isEnLo] at h,
    not_isFaulted_of_transaction h⟩

/-! ### The steps of a transmit on infallible lines -/

section
variable (hf : s.params.lineFallible = false) (hr : s.inp.rst = false)
include hf hr

theorem step_of_rsSet (hp : s.ph = .rsSet) :
    step s = .next { s with
      lines := { s.lines with rs := s.isData || s.lines.rs }
      trace := s.trace ++ rsTrace s.isData true
      ph := s.ph.after s.params.busWidth, done := false, world := s.world.tail } := by
  have hexec : exec s.latched s = .next (s.setRs s.isData (s.ph.after s.params.busWidth)) := by
    simpa using exec_of_rsSet (i := s.latched) (by simp) hp
  rw [step_of_exec_latched hr (by simp [State.busy, hp]) hexec,
    setRs_of_succeeds fun _ => writeFails_of_infallible hf .rs]
  rfl

theorem step_of_rsClr (hp : s.ph = .rsClr) :
    step s = .next { s with
      lines := { s.lines with rs := !s.isData && s.lines.rs }
      trace := s.trace ++ rsTrace s.isData false, ph := .idle, done := true, world := s.world.tail } := by
  have hexec : exec s.latched s = .next (s.clearRs s.isData) := by
    simpa using exec_of_rsClr (i := s.latched) (by simp) hp
  rw [step_of_exec_latched hr (by simp [State.busy, hp]) hexec,
    clearRs_of_succeeds fun _ => writeFails_of_infallible hf .rs]
  rfl

variable (hp : s.phaseOk = true)
include hp

theorem step_of_isDrive (ha : s.params.dataAtomic = true) (hd : s.ph.isDrive = true) :
    step s = .next { s with
      lines := s.lines.setData (driveValue s.latched s.ph)
      trace := s.trace ++ [.wd (driveValue s.latched s.ph)]
      ph := s.ph.after s.params.busWidth, done := false, world := s.world.tail } := by
  rw [step_of_exec_latched hr (busy_of_transaction (by simp [hd]))
    (exec_of_isDrive (latched_busWidth s).symm (by rwa [latched_busWidth]) hd), drive_of_plain hf ha, latched_busWidth]
  rfl

theorem step_of_isEnHi (he : s.ph.isEnHi = true) :
    step s = .next { s with
      lines := { s.lines with en := true }, trace := s.trace ++ [.w .en true]
      ph := s.ph.after s.params.busWidth, done := false, world := s.world.tail } := by
  rw [step_of_exec_latched hr (busy_of_transaction (by simp [he]))
    (exec_of_isEnHi (latched_busWidth s).symm (by rwa [latched_busWidth]) he), writeLine_of_infallible hf,
    latched_busWidth]
  rfl

theorem step_of_isEnLo (he : s.ph.isEnLo = true) :
    step s = .next { s with
      lines := { s.lines with en := false }, trace := s.trace ++ [.w .en false]
      ph := s.ph.after s.params.busWidth, done := false, world := s.world.tail } := by
  rw [step_of_exec_latched hr (busy_of_transaction (by simp [he]))
    (exec_of_isEnLo (latched_busWidth s).symm (by rwa [latched_busWidth]) he), writeLine_of_infallible hf,
    latched_busWidth]
  rfl

omit hf

theorem step_of_isWait (hw : s.ph.isWait = true) :
    step s = .next (s.waitDelay (s.ph.after s.params.busWidth)).advance := by
  rw [step_of_exec_latched hr (busy_of_transaction (by simp [hw]))
    (exec_of_isWait (latched_busWidth s).symm (by rwa [latched_busWidth]) hw), latched_busWidth]

theorem step_of_issue (hw : s.ph.isWait = true) (hd : s.dly = .none) :
    step s = .next { s with
      dly := .req s.params.tPulseMs, trace := s.trace ++ [.dly s.params.tPulseMs], done := false
      world := s.world.tail } := by
  rw [step_of_isWait hr hp hw, State.waitDelay, hd]
  rfl

theorem step_of_answer {n : Nat} (hw : s.ph.isWait = true) (hd : s.dly = .req n) (ha : s.inp.answers n = true) :
    step s = .next { s with dly := .ack, done := false, world := s.world.tail } := by
  obtain ⟨m, hm, hle⟩ := (answers_iff hr n).1 ha
  rw [step_of_isWait hr hp hw]
  simp [State.waitDelay, hd, State.answerDelay, hm, hle, State.advance]

theorem step_of_consume (hw : s.ph.isWait = true) (hd : s.dly = .ack) :
    step s = .next { s with
      dly := .none, ph := s.ph.after s.params.busWidth, done := false, world := s.world.tail } := by
  rw [step_of_isWait hr hp hw, State.waitDelay, hd]
  rfl

end

/-! ### The phases of a transaction: `DRIVE`, `ENHI`, `WAIT`, `ENLO` (40_shared_transmit.md R76) -/

theorem isDrive_after_rsSet (bw : BusWidth) : (Phase.rsSet.after bw).isDrive = true := by
  cases bw <;> rfl

theorem isEnHi_after_isDrive {p : Phase} (h : p.isDrive = true) (bw : BusWidth) : (p.after bw).isEnHi = true := by
  cases p <;> simp_all [Phase.isDrive, Phase.after, Phase.isEnHi]

theorem isWait_after_isEnHi {p : Phase} (h : p.isEnHi = true) (bw : BusWidth) : (p.after bw).isWait = true := by
  cases p <;> simp_all [Phase.isEnHi, Phase.after, Phase.isWait]

theorem isEnLo_after_isWait {p : Phase} (h : p.isWait = true) (bw : BusWidth) : (p.after bw).isEnLo = true := by
  cases p <;> simp_all [Phase.isWait, Phase.after, Phase.isEnLo]

/-- The phase after a transaction that begins in a `DRIVE` phase. -/
def Phase.afterTransaction (bw : BusWidth) (p : Phase) : Phase := (((p.after bw).after bw).after bw).after bw

/-! ### One transaction -/

/-- A transaction is about to begin, on infallible lines and with the parallel data write. -/
structure BeginsTransaction (s : State) : Prop where
  infallible : s.params.lineFallible = false
  atomic : s.params.dataAtomic = true
  phase : s.phaseOk = true
  drive : s.ph.isDrive = true
  delay : s.dly = .none

/-- Inputs that carry a transaction out: none answers or resets until the delay of `ms` milliseconds is issued and for
some time after it, then comes the answer, and two steps without reset follow it. -/
structure CarriesTransaction (ms : Nat) (before : List Inputs) (ans : Inputs) (after : List Inputs) : Prop where
  issued : 3 ≤ before.length
  silent : ∀ u ∈ before, u.noAnswer = true
  answered : ans.answers ms = true
  finished : after.length = 2
  noReset : ∀ u ∈ after, u.rst = false

theorem run_of_step {n : Nat} {o : Host.Outcome State Fault Refusal} (h : step s = .next t)
    (hrest : Sys2Proof.core.run n t = o) : Sys2Proof.core.run (n + 1) s = o :=
  (core_run_of_next h n).trans hrest

theorem rst_of_answers {n : Nat} {a : Inputs} (h : a.answers n = true) : a.rst = false := by
  simp only [Inputs.answers, Bool.and_eq_true, Bool.not_eq_true'] at h
  exact h.1

/-- From a `DRIVE` phase, through the `WAIT` phase up to where the delay is answered. -/
theorem run_to_held {a b c : Inputs} {held rest : List Inputs} (hs : BeginsTransaction s)
    (hw : s.world = a :: b :: c :: held ++ rest) (hno : ∀ u ∈ a :: b :: c :: held, u.noAnswer = true) :
    Sys2Proof.core.run (held.length + 3) s = .next { s with
      lines := { s.lines with en := true, data := driveValue s.latched s.ph }
      trace := s.trace ++ [.wd (driveValue s.latched s.ph), .w .en true, .dly s.params.tPulseMs]
      ph := (s.ph.after s.params.busWidth).after s.params.busWidth, dly := .req s.params.tPulseMs, done := false
      world := rest } := by
  have hrst : ∀ u ∈ a :: b :: c :: held, u.rst = false := fun u hu => ((noAnswer_iff u).1 (hno u hu)).1
  have hheld : ∀ u ∈ (held ++ rest).take held.length, u.noAnswer = true := by
    rw [List.take_left]
    exact fun u hu => hno u (by simp [hu])
  have hhi := isEnHi_after_isDrive hs.drive s.params.busWidth
  have hwait := isWait_after_isEnHi hhi s.params.busWidth
  have hphi := ofVariant_after hs.phase
  have hpwait := ofVariant_after hphi
  refine run_of_step (step_of_isDrive hs.infallible (inp_of_cons hw ▸ hrst a (by simp)) hs.phase hs.atomic hs.drive) ?_
  rw [hw]
  refine run_of_step (step_of_isEnHi hs.infallible (hrst b (by simp)) hphi hhi) ?_
  refine run_of_step (step_of_issue (hrst c (by simp)) hpwait hwait hs.delay) ?_
  refine Eq.trans (run_of_held held.length _ hpwait (heldByDelay_iff.2 ⟨hwait, _, rfl⟩) hheld) ?_
  simp [Lines.setData]

/-- From where the delay is answered to the end of the transaction. -/
theorem run_from_answer {a b c : Inputs} {rest : List Inputs} (hf : s.params.lineFallible = false)
    (hp : s.phaseOk = true) (hwait : s.ph.isWait = true) {n : Nat} (hdly : s.dly = .req n)
    (hw : s.world = a :: b :: c :: rest) (ha : a.answers n = true) (hrst : ∀ u ∈ [b, c], u.rst = false) :
    Sys2Proof.core.run 3 s = .next { s with
      lines := { s.lines with en := false }, trace := s.trace ++ [.w .en false]
      ph := (s.ph.after s.params.busWidth).after s.params.busWidth, dly := .none, done := false, world := rest } := by
  have hlo := isEnLo_after_isWait hwait s.params.busWidth
  have hans := inp_of_cons hw
  refine run_of_step (step_of_answer (hans ▸ rst_of_answers ha) hp hwait hdly (hans ▸ ha)) ?_
  rw [hw]
  refine run_of_step (step_of_consume (hrst b (by simp)) hp hwait rfl) ?_
  exact run_of_step (step_of_isEnLo hf (hrst c (by simp)) (ofVariant_after hp) hlo) rfl

/-- One transaction of either variant, with its delay answered however late. -/
theorem run_transaction {before after rest : List Inputs} {ans : Inputs} (hs : BeginsTransaction s)
    (hw : s.world = before ++ ans :: after ++ rest) (hin : CarriesTransaction s.params.tPulseMs before ans after) :
    Sys2Proof.core.run (before.length + 3) s = .next { s with
      lines := { s.lines with en := false, data := driveValue s.latched s.ph }
      trace := s.trace ++ txnTrace s.params.tPulseMs (driveValue s.latched s.ph)
      ph := s.ph.afterTransaction s.params.busWidth, done := false, world := rest } := by
  obtain ⟨hissued, hsilent, hanswered, hfinished, hrst⟩ := hin
  obtain ⟨a, b, c, held, rfl⟩ : ∃ a b c held, before = a :: b :: c :: held := by
    match before, hissued with
    | a :: b :: c :: held, _ => exact ⟨a, b, c, held, rfl⟩
  obtain ⟨d, e, rfl⟩ := List.length_eq_two.1 hfinished
  have hwait := isWait_after_isEnHi (isEnHi_after_isDrive hs.drive s.params.busWidth) s.params.busWidth
  have hheld := run_to_held hs (rest := ans :: d :: e :: rest) (by simpa using hw) hsilent
  refine Eq.trans (run_add 3 _ _ _ hheld) ?_
  refine Eq.trans (run_from_answer hs.infallible (ofVariant_after (ofVariant_after hs.phase)) hwait rfl rfl hanswered
    hrst) ?_
  simp [Phase.afterTransaction, txnTrace, pulseTrace, hs.delay]

/-! ### A whole transmit of the 8-bit variant -/

theorem presents_iff {w : Req9} {a : Inputs} :
    a.presents w = true ↔ a.rst = false ∧ a.reqValid = true ∧ a.reqWord = w := by
  simp [Inputs.presents, and_assoc]

/-- Acceptance and `RSSET`, of either variant. -/
theorem run_accept_rsSet {f : Bool} {b : Byte} {a c : Inputs} {rest : List Inputs}
    (hf : s.params.lineFallible = false) (hp : s.ph = .idle) (hrs : s.lines.rs = false) (hw : s.world = a :: c :: rest)
    (ha : a.presents (reqWord f b) = true) (hc : c.rst = false) :
    Sys2Proof.core.run 2 s = .next { s with
      lines := { s.lines with rs := f }, trace := s.trace ++ rsTrace f true, byte := b, isData := f
      ph := Phase.rsSet.after s.params.busWidth, done := false, world := rest } := by
  obtain ⟨hr, hv, hword⟩ := presents_iff.1 ha
  have hinp := inp_of_cons hw
  have haccept : step s = .next (s.accept f b).advance := by
    simpa [hinp, hword] using step_of_accepts (hinp ▸ hr) hp (hinp ▸ hv)
  have hin : (s.accept f b).advance.inp = c := inp_of_cons (is := rest) (by simp [hw])
  refine run_of_step haccept (run_of_step (step_of_rsSet hf (hin ▸ hc) rfl) ?_)
  simp [hw, hrs, State.advance, State.accept]

/-- Settles O12: acceptance and `RSSET`, the one transaction of a byte, `RSCLR`. -/
theorem eightBitTransmitRunsToTheReturn : Obligations.EightBitTransmitRunsToTheReturn := by
  intro f b s hd ans before after rest hbw hf hat hp hen hrs hdly hw hpres hlen hno ha hlen' hrst
  obtain ⟨c, before', rfl⟩ := List.exists_cons_of_length_pos (by omega : 0 < before.length)
  obtain ⟨d, e, g, rfl⟩ := List.length_eq_three.1 hlen'
  have hc : c.rst = false := ((noAnswer_iff c).1 (hno c (by simp))).1
  have hin : CarriesTransaction s.params.tPulseMs before' ans [d, e] :=
    ⟨by simpa using hlen, fun u hu => hno u (by simp [hu]), ha, rfl, fun u hu => hrst u (List.mem_append_left [g] hu)⟩
  have hphase : (Phase.rsSet.after s.params.busWidth).ofVariant s.params.busWidth = true := ofVariant_after rfl
  rw [show (c :: before').length + 5 = 2 + (before'.length + 3 + 1) by rw [List.length_cons]; omega]
  refine Eq.trans (run_add _ _ _ _ (run_accept_rsSet (rest := before' ++ ans :: [d, e] ++ g :: rest) hf hp hrs
    (by simpa using hw) hpres hc)) ?_
  refine Eq.trans (run_add _ _ _ _ (run_transaction ⟨hf, hat, hphase, isDrive_after_rsSet _, hdly⟩ rfl hin)) ?_
  refine run_of_step (step_of_rsClr hf (hrst g (by simp)) (by rw [hbw]; rfl)) ?_
  simp [hbw, hdly, Phase.after, driveValue, trace8]

end Sys2Proof.Machine
end

section
/-! SUPPORT. Proofs for 42_fourbit.md: the table of the 4-bit sequencer (R108, O10), and the run of a 4-bit transmit
from acceptance to the return, with its two transactions (R109, O13). -/

namespace Sys2Proof.Machine

variable {s : State}

/-! ### The rows of the 4-bit variant, one for both passes -/

@[simp] theorem instr4_busWidth (f : Bool) (b : Byte) : (instr4 f b).busWidth = .four := by cases f <;> rfl
@[simp] theorem instr4_isData (f : Bool) (b : Byte) : (instr4 f b).isData = f := by cases f <;> rfl
@[simp] theorem instr4_byte (f : Bool) (b : Byte) : (instr4 f b).byte = b := by cases f <;> rfl

section
variable {f : Bool} {b : Byte} {p : Phase} (hbw : s.params.busWidth = .four) (hp : s.ph = p)
  (hv : p.ofVariant .four = true)
include hbw hp hv

theorem exec_instr4_of_isDrive {v : Nibble} (hd : p.isDrive = true) (hval : driveValue (instr4 f b) p = .n v)
    (ha : s.params.dataAtomic = true) (hok : ∀ k, s.writeFails (.n k) = false) :
    exec (instr4 f b) s = .next { s with
      lines := { s.lines with data := .n v }
      trace := s.trace ++ [.wd (.n v)], ph := p.after .four, done := false } := by
  have hlines : ∀ l ∈ (DataWord.n v).lines, s.writeFails l = false := by
    intro l hl
    obtain ⟨k, -, rfl⟩ := (mem_lines_iff _ l).1 hl
    exact hok _
  subst hp
  rw [exec_of_isDrive (by simpa using hbw) (by simpa using hv) hd, hval, drive_of_succeeds ha hlines, instr4_busWidth]
  rfl

theorem exec_instr4_of_isEnHi (he : p.isEnHi = true) (hok : s.writeFails .en = false) :
    exec (instr4 f b) s = .next { s with
      lines := { s.lines with en := true }
      trace := s.trace ++ [.w .en true], ph := p.after .four, done := false } := by
  subst hp
  rw [exec_of_isEnHi (by simpa using hbw) (by simpa using hv) he, writeLine_of_succeeds hok, instr4_busWidth]
  rfl

theorem exec_instr4_of_isEnLo (he : p.isEnLo = true) (hok : s.writeFails .en = false) :
    exec (instr4 f b) s = .next { s with
      lines := { s.lines with en := false }
      trace := s.trace ++ [.w .en false], ph := p.after .four, done := false } := by
  subst hp
  rw [exec_of_isEnLo (by simpa using hbw) (by simpa using hv) he, writeLine_of_succeeds hok, instr4_busWidth]
  rfl

theorem waitRow_instr4_of_isWait (hw : p.isWait = true) : WaitRow (instr4 f b) s (p.after .four) := by
  subst hp
  simpa using waitRow_of_isWait (i := instr4 f b) (by simpa using hbw) (by simpa using hv) hw

end

/-- Settles O10, row by row; one lemma for each kind of phase serves both passes. -/
theorem fourBitSequencerTable : Obligations.FourBitSequencerTable := by
  intro f b s hbw
  have hv : s.params.busWidth = (instr4 f b).busWidth := by rw [hbw, instr4_busWidth]
  refine ⟨fun hp => ?idle, fun hp hok => ?rsSet, fun hp => ?driveHi, fun hp => ?enHi1, fun hp => ?wait1,
    fun hp => ?enLo1, fun hp => ?driveLo, fun hp => ?enHi2, fun hp => ?wait2, fun hp => ?enLo2, fun hp hok => ?rsClr⟩
  case idle => simp [exec_of_idle hv hp, State.accept]
  case rsSet =>
    rw [exec_of_rsSet hv hp, instr4_isData, setRs_of_succeeds hok, hp, instr4_busWidth]
    rfl
  case driveHi => exact exec_instr4_of_isDrive hbw hp rfl rfl (by simp [driveValue, upperNibble])
  case enHi1 => exact exec_instr4_of_isEnHi hbw hp rfl rfl
  case wait1 => exact waitRow_instr4_of_isWait hbw hp rfl rfl
  case enLo1 => exact exec_instr4_of_isEnLo hbw hp rfl rfl
  case driveLo => exact exec_instr4_of_isDrive hbw hp rfl rfl (by simp [driveValue, lowerNibble])
  case enHi2 => exact exec_instr4_of_isEnHi hbw hp rfl rfl
  case wait2 => exact waitRow_instr4_of_isWait hbw hp rfl rfl
  case enLo2 => exact exec_instr4_of_isEnLo hbw hp rfl rfl
  case rsClr =>
    rw [exec_of_rsClr hv hp, instr4_isData, clearRs_of_succeeds hok]
    rfl

/-! ### A whole transmit of the 4-bit variant -/

/-- The two transactions of a byte, upper nibble first: the first leaves `PH` where the second begins. -/
theorem run_two_transactions {before1 after1 before2 after2 rest : List Inputs} {ans1 ans2 : Inputs}
    (hbw : s.params.busWidth = .four) (hp : s.ph = .driveHi) (hs : BeginsTransaction s)
    (hw : s.world = before1 ++ ans1 :: after1 ++ (before2 ++ ans2 :: after2 ++ rest))
    (hin1 : CarriesTransaction s.params.tPulseMs before1 ans1 after1)
    (hin2 : CarriesTransaction s.params.tPulseMs before2 ans2 after2) :
    Sys2Proof.core.run (before1.length + 3 + (before2.length + 3)) s = .next { s with
      lines := { s.lines with en := false, data := .n (lowerNibble s.byte) }
      trace := s.trace ++ txnTrace s.params.tPulseMs (.n (upperNibble s.byte)) ++
        txnTrace s.params.tPulseMs (.n (lowerNibble s.byte))
      ph := .rsClr, done := false, world := rest } := by
  have hnext : s.ph.afterTransaction s.params.busWidth = .driveLo := by rw [hp, hbw]; rfl
  have hlo : Phase.driveLo.ofVariant s.params.busWidth = true := by rw [hbw]; rfl
  refine Eq.trans (run_add _ _ _ _ (run_transaction hs hw hin1)) ?_
  rw [hnext]
  refine Eq.trans (run_transaction ⟨hs.infallible, hs.atomic, hlo, rfl, hs.delay⟩ rfl hin2) ?_
  simp [hp, driveValue, Phase.afterTransaction, Phase.after]

/-- Settles O13: acceptance and `RSSET`, the two transactions of a byte, `RSCLR`. -/
theorem fourBitTransmitRunsToTheReturn : Obligations.FourBitTransmitRunsToTheReturn := by
  intro f b s hd ans1 ans2 before between after rest hbw hf hat hp _ hrs hdly hw hpres hlen1 hno1 ha1 hlen2 hno2 ha2
    hlen3 hrst
  obtain ⟨c, before, rfl⟩ := List.exists_cons_of_length_pos (by omega : 0 < before.length)
  obtain ⟨d, e, between, rfl⟩ : ∃ d e l, between = d :: e :: l := by
    match between, hlen2 with
    | d :: e :: l, _ => exact ⟨d, e, l, rfl⟩
  obtain ⟨x, y, g, rfl⟩ := List.length_eq_three.1 hlen3
  have hquiet1 : ∀ u ∈ c :: before, u.rst = false := fun u hu => ((noAnswer_iff u).1 (hno1 u hu)).1
  have hquiet2 : ∀ u ∈ d :: e :: between, u.rst = false := fun u hu => ((noAnswer_iff u).1 (hno2 u hu)).1
  have hin1 : CarriesTransaction s.params.tPulseMs before ans1 [d, e] :=
    ⟨by simpa using hlen1, fun u hu => hno1 u (by simp [hu]), ha1, rfl,
      fun u hu => hquiet2 u (List.mem_append_left between hu)⟩
  have hin2 : CarriesTransaction s.params.tPulseMs between ans2 [x, y] :=
    ⟨by simpa using hlen2, fun u hu => hno2 u (by simp [hu]), ha2, rfl,
      fun u hu => hrst u (List.mem_append_left [g] hu)⟩
  have hdrive : Phase.rsSet.after s.params.busWidth = .driveHi := by rw [hbw]; rfl
  have hphase : Phase.driveHi.ofVariant s.params.busWidth = true := by rw [hbw]; rfl
  rw [show (c :: before).length + (d :: e :: between).length + 6
      = 2 + (before.length + 3 + (between.length + 3) + 1) by simp only [List.length_cons]; omega]
  refine Eq.trans (run_add _ _ _ _ (run_accept_rsSet
    (rest := before ++ ans1 :: [d, e] ++ (between ++ ans2 :: [x, y] ++ g :: rest)) hf hp hrs
    (by simpa using hw) hpres (hquiet1 c (by simp)))) ?_
  rw [hdrive]
  refine Eq.trans (run_add _ _ _ _ (run_two_transactions hbw rfl ⟨hf, hat, hphase, rfl, hdly⟩ rfl hin1 hin2)) ?_
  refine run_of_step (step_of_rsClr hf (hrst g (by simp)) rfl) ?_
  simp [hdly, trace4]

end Sys2Proof.Machine
end

section
/-! SUPPORT. Proofs for 60_exceptions.md, the fault: a new fault mark is fault entry at a line whose write the phase
makes and fails (O43, O44), a failing write of `RS` or `EN` makes it (O41), a faulted instance is dead until reset
(O45), and infallible lines never fault (O47). -/

namespace Sys2Proof.Machine

variable {s t : State} {i : Instr} {W : Line → Bool}

/-! ### Where a fault comes from -/

/-- If `t` is marked with a fault, it is `s` after fault entry at that line: one of the lines of `W`, whose write
fails. -/
def FaultsOnlyAt (W : Line → Bool) (s t : State) : Prop :=
  ∀ l, t.ph = .faulted l → W l = true ∧ s.writeFails l = true ∧ t = s.raiseLineSetFault l

theorem FaultsOnlyAt.of_live (ht : t.ph.isFaulted = false) : FaultsOnlyAt W s t := by
  intro l hl
  simp [hl, Phase.isFaulted] at ht

theorem FaultsOnlyAt.of_fault {l : Line} (hW : W l = true) (hfail : s.writeFails l = true) :
    FaultsOnlyAt W s (s.raiseLineSetFault l) := by
  intro l' hl'
  cases hl'
  exact ⟨hW, hfail, rfl⟩

theorem writeLine_faultsOnlyAt {l : Line} (hW : W l = true) (v : Level) {nxt : Phase} (hn : nxt.isFaulted = false) :
    FaultsOnlyAt W s (s.writeLine l v nxt) := by
  rcases writeLine_cases l v nxt s with ⟨hfail, e⟩ | ⟨-, e⟩ <;> rw [e]
  · exact .of_fault hW hfail
  · exact .of_live hn

theorem setRs_faultsOnlyAt {f : Bool} (hW : f = true → W .rs = true) {nxt : Phase} (hn : nxt.isFaulted = false) :
    FaultsOnlyAt W s (s.setRs f nxt) := by
  cases f
  · exact .of_live hn
  · exact writeLine_faultsOnlyAt (hW rfl) true hn

theorem clearRs_faultsOnlyAt {f : Bool} (hW : f = true → W .rs = true) : FaultsOnlyAt W s (s.clearRs f) := by
  rcases clearRs_cases f s with ⟨-, e⟩ | ⟨hf, hfail, e⟩ | ⟨-, -, e⟩ <;> rw [e]
  · exact .of_live rfl
  · exact .of_fault (hW hf) hfail
  · exact .of_live rfl

theorem drive_faultsOnlyAt {v : DataWord} (hW : ∀ l ∈ v.lines, W l = true) {nxt : Phase}
    (hn : nxt.isFaulted = false) (hs : s.ph.isFaulted = false) : FaultsOnlyAt W s (s.drive v nxt) := by
  rcases drive_cases v nxt s with ⟨l, hl, hfail, e⟩ | ⟨-, -, e⟩ | ⟨-, -, e⟩ | ⟨-, _, -, -, -, _, _, hph, e⟩ <;> rw [e]
  · exact .of_fault (hW l hl) hfail
  · exact .of_live hn
  · exact .of_live hn
  · rcases hph with ⟨-, rfl, -⟩ | ⟨-, rfl, -⟩
    · exact .of_live hn
    · exact .of_live hs

theorem waitDelay_faultsOnlyAt {nxt : Phase} (hn : nxt.isFaulted = false) (hs : s.ph.isFaulted = false) :
    FaultsOnlyAt W s (s.waitDelay nxt) := by
  rcases waitDelay_ph nxt s with ⟨-, e⟩ | ⟨-, e⟩
  · exact .of_live (by rwa [e])
  · exact .of_live (by rwa [e])

/-- Out of `FAULTED`, a row faults only at a line that its phase may write, by a write that fails. -/
theorem exec_faultsOnlyAt (hs : s.ph.isFaulted = false) (h : exec i s = .next t) :
    FaultsOnlyAt (mayWrite i s.ph) s t := by
  have hn : (s.ph.after i.busWidth).isFaulted = false := by rwa [isFaulted_after]
  obtain ⟨-, hp, ⟨-, rfl⟩ | ⟨hq, rfl⟩ | ⟨hd, rfl⟩ | ⟨he, rfl⟩ | ⟨-, rfl⟩ | ⟨he, rfl⟩ | ⟨hq, rfl⟩ | ⟨hf, -⟩⟩ :=
    exec_cases h
  · exact .of_live rfl
  · exact setRs_faultsOnlyAt (fun hf => by simp [mayWrite, hf, hq]) hn
  · exact drive_faultsOnlyAt (fun _ => mayWrite_of_mem_lines (driveValue_variant hp hd) hd) hn hs
  · exact writeLine_faultsOnlyAt (by simp [mayWrite, he]) true hn
  · exact waitDelay_faultsOnlyAt hn hs
  · exact writeLine_faultsOnlyAt (by simp [mayWrite, he]) false hn
  · exact clearRs_faultsOnlyAt fun hf => by simp [mayWrite, hf, hq]
  · simp [hs] at hf

theorem exec_of_isFaulted (hf : s.ph.isFaulted = true) (h : exec i s = .next t) : t = s.hold := by
  obtain ⟨-, -, hrow⟩ := exec_cases h
  cases hp : s.ph <;> simp_all [Phase.isFaulted, Phase.isDrive, Phase.isEnHi, Phase.isWait, Phase.isEnLo]

/-- A faulted instance keeps its mark, so a row that newly marks a fault enters it from a live phase. -/
theorem exec_enters_fault {l : Line} (h : exec i s = .next t) (ht : t.ph = .faulted l) (hs : s.ph ≠ .faulted l) :
    mayWrite i s.ph l = true ∧ s.writeFails l = true ∧ t = s.raiseLineSetFault l := by
  cases hf : s.ph.isFaulted
  · exact exec_faultsOnlyAt hf h l ht
  · rw [exec_of_isFaulted hf h] at ht
    exact absurd ht hs

/-- No line is written at acceptance or in a `WAIT` phase. -/
theorem phase_of_mayWrite {p : Phase} {l : Line} (h : mayWrite i p l = true) : p ≠ .idle ∧ p.isWait = false := by
  cases l <;> cases p <;> simp_all [mayWrite, Phase.isDrive, Phase.isEnHi, Phase.isEnLo, Phase.isWait]

/-- Settles O43, by where a new fault mark comes from. -/
theorem faultsComeOnlyFromFailedWrites : Obligations.FaultsComeOnlyFromFailedWrites := by
  intro i s t l h ht hs
  obtain ⟨hwrite, hfail, -⟩ := exec_enters_fault h ht hs
  obtain ⟨hfallible, hmem⟩ := (writeFails_iff l).1 hfail
  obtain ⟨hidle, hwait⟩ := phase_of_mayWrite hwrite
  exact ⟨hfallible, hmem, hwrite, hidle, hwait⟩

/-- Settles O44: the step is fault entry, which sets no line but `l`. -/
theorem faultEntryTouchesOnlyTheFailedLine : Obligations.FaultEntryTouchesOnlyTheFailedLine := by
  intro i s t l h ht hs
  obtain ⟨-, -, rfl⟩ := exec_enters_fault h ht hs
  exact ⟨rfl, rfl, rfl, rfl, rfl, rfl, rfl, rfl, fun _ hne => raiseLineSetFault_get_of_ne hne s⟩

/-! ### A failing write of `RS` or `EN` -/

theorem writeLine_of_fails {l : Line} (h : s.writeFails l = true) (v : Level) (nxt : Phase) :
    s.writeLine l v nxt = s.raiseLineSetFault l := by
  rw [State.writeLine, if_pos h]

theorem exec_of_failing_rs (hv : s.params.busWidth = i.busWidth) (hfail : s.writeFails .rs = true)
    (hw : mayWrite i s.ph .rs = true) : exec i s = .next (s.raiseLineSetFault .rs) := by
  obtain ⟨hdata, hq | hq⟩ : i.isData = true ∧ (s.ph = .rsSet ∨ s.ph = .rsClr) := by simpa [mayWrite] using hw
  · rw [exec_of_rsSet hv hq, hdata, State.setRs, if_pos rfl, writeLine_of_fails hfail]
  · rw [exec_of_rsClr hv hq, hdata, State.clearRs, if_pos rfl, writeLine_of_fails hfail]
    rfl

theorem exec_of_failing_en (hv : s.params.busWidth = i.busWidth) (hp : s.ph.ofVariant i.busWidth = true)
    (hfail : s.writeFails .en = true) (hw : mayWrite i s.ph .en = true) :
    exec i s = .next (s.raiseLineSetFault .en) := by
  obtain he | he : s.ph.isEnHi = true ∨ s.ph.isEnLo = true := by simpa [mayWrite] using hw
  · rw [exec_of_isEnHi hv hp he, writeLine_of_fails hfail]
  · rw [exec_of_isEnLo hv hp he, writeLine_of_fails hfail]

/-- Settles O41: the row is fault entry at `RS` or at `EN`. -/
theorem failedRsOrEnableWriteEntersTheFault : Obligations.FailedRsOrEnableWriteEntersTheFault := by
  intro i s l hv hp hf hmem hl hw
  have hfail : s.writeFails l = true := (writeFails_iff l).2 ⟨hf, hmem⟩
  have hexec : exec i s = .next (s.raiseLineSetFault l) := by
    rcases hl with rfl | rfl
    · exact exec_of_failing_rs hv hfail hw
    · exact exec_of_failing_en hv (hv ▸ hp) hfail hw
  exact ⟨_, hexec, rfl, rfl, rfl, rfl, rfl, rfl, rfl, rfl, rfl, fun _ hne => raiseLineSetFault_get_of_ne hne s⟩

/-! ### `FAULTED` -/

theorem step_of_isFaulted (hf : s.ph.isFaulted = true) (hr : s.inp.rst = false) (hw : s.world ≠ []) :
    step s = .next s.hold.advance := by
  rw [step_of_noFetch hr (fetch_of_isFaulted hf), rest_of_world_ne_nil hw, advanceOutcome_next]

theorem run_of_isFaulted : ∀ (n : Nat) (s : State), s.ph.isFaulted = true → (∀ a ∈ s.world, a.rst = false) →
    n ≤ s.world.length →
    Sys2Proof.core.run n s = .next { s with world := s.world.drop n, done := s.done && n == 0 }
  | 0, s, _, _, _ => by simp
  | n + 1, s, hf, hr, hn => by
    have hw : s.world ≠ [] := List.ne_nil_of_length_pos (by omega)
    have hrest : ∀ a ∈ s.hold.advance.world, a.rst = false := fun a ha => hr a (List.mem_of_mem_tail ha)
    have hlen : n ≤ s.hold.advance.world.length := by
      rw [State.advance_world, State.hold_world, List.length_tail]
      omega
    rw [core_run_of_next (step_of_isFaulted hf (rst_of_world hr) hw), run_of_isFaulted n s.hold.advance hf hrest hlen]
    simp [State.hold, State.advance]

/-- Settles O45: while inputs come, each step without reset holds; reset goes to `IDLE`. -/
theorem faultedInstanceIsDead : Obligations.FaultedInstanceIsDead := by
  intro s l hp
  have hf : s.ph.isFaulted = true := by rw [hp]; rfl
  refine ⟨by simp [State.reqReady, hp], by simp [State.runOver, hp], fun hr => ?_, fun n => run_of_isFaulted n s hf⟩
  exact ⟨_, step_of_rst hr, rfl⟩

/-! ### Infallible lines -/

/-- Settles O47: by the invariant the instance is not faulted, and on infallible lines no step marks a fault. -/
theorem infallibleLinesNeverFault : Obligations.InfallibleLinesNeverFault := by
  intro s hs hf
  have hlive := not_isFaulted_of_infallible hs hf
  obtain ⟨-, -, hphase, -⟩ := (inv_iff s).1 hs
  cases hr : s.inp.rst
  · by_cases hp : s.ph = .idle
    · cases hv : s.inp.reqValid
      · exact ⟨_, step_of_idle_without_request hr hp hv, hlive⟩
      · exact ⟨_, step_of_accepts hr hp hv, rfl⟩
    · obtain ⟨u, hu, hstep⟩ := step_of_busy hr ((busy_iff s).2 ⟨hp, hlive⟩) hphase
      exact ⟨_, hstep, (exec_live_of_infallible hf hlive hu :)⟩
  · exact ⟨_, step_of_rst hr, rfl⟩

end Sys2Proof.Machine
end

section
/-! SUPPORT. Proofs for 70_reset_and_hazards.md: a step with `rst` asserted is the reset step (O38), construction
answers by the width, the number of pins and their drivers (O39), and an idle step without a request holds (O7). -/

namespace Sys2Proof.Machine

/-! ### Reset -/

/-- Settles O38: the step is `applyReset`, whose data lines take `DB_RESET` on the variant of the instance. -/
theorem resetWinsInEveryState : Obligations.ResetWinsInEveryState := by
  intro s hr
  have hdata : ∀ v, s.params.dbReset = some v →
      s.applyReset.advance.lines.data = dataOfByte s.params.busWidth v := fun v hv => by simp [hv]
  exact ⟨_, step_of_rst hr, rfl, rfl, variant_dataOfByte _ _, hdata, rfl, rfl, rfl, rfl, rfl, rfl, rfl, rfl⟩

/-! ### Construction -/

theorem ofNat?_eq_none {w : Nat} (h8 : w ≠ 8) (h4 : w ≠ 4) : BusWidth.ofNat? w = none := by
  unfold BusWidth.ofNat?
  split
  · exact absurd rfl h8
  · exact absurd rfl h4
  · rfl

theorem ofNat?_eq_some {w : Nat} {bw : BusWidth} (h : w = 8 ∧ bw = .eight ∨ w = 4 ∧ bw = .four) :
    BusWidth.ofNat? w = some bw := by
  rcases h with ⟨rfl, rfl⟩ | ⟨rfl, rfl⟩ <;> rfl

section
variable {w : Nat} {bw : BusWidth} {pins taken : List Nat} {p : Params}

theorem construct_of_noSuchVariant (h : BusWidth.ofNat? w = none) :
    construct w pins taken p = .refused (.noSuchVariant w) := by
  rw [construct, h]

theorem construct_of_wrongLineCount (h : BusWidth.ofNat? w = some bw) (hlen : pins.length ≠ bw.nLines) :
    construct w pins taken p = .refused (.wrongLineCount pins.length) := by
  simp only [construct, h, if_pos hlen]

theorem construct_of_ownPins (h : BusWidth.ofNat? w = some bw) (hlen : pins.length = bw.nLines)
    (hown : pins.Nodup ∧ ∀ x ∈ pins, x ∉ taken) :
    construct w pins taken p = .next (State.resetWith { p with busWidth := bw }) := by
  simp only [construct, h, if_neg (not_not_intro hlen), if_pos hown]

theorem construct_of_sharedPins (h : BusWidth.ofNat? w = some bw) (hlen : pins.length = bw.nLines)
    (hshared : ¬ (pins.Nodup ∧ ∀ x ∈ pins, x ∉ taken)) : construct w pins taken p = .refused .sharedPins := by
  simp only [construct, h, if_neg (not_not_intro hlen), if_neg hshared]

end

/-- Settles O39: the width fixes the variant or that there is none; then the pins are counted, then their drivers
looked at. -/
theorem constructionRefusesOtherConfigurations : Obligations.ConstructionRefusesOtherConfigurations := by
  intro w pins taken p
  refine ⟨fun h8 h4 => construct_of_noSuchVariant (ofNat?_eq_none h8 h4), fun bw hbw => ?_⟩
  have hw := ofNat?_eq_some hbw
  refine ⟨fun hlen hnodup hfree => construct_of_ownPins hw hlen ⟨hnodup, hfree⟩,
    construct_of_wrongLineCount hw, fun hlen hshared => construct_of_sharedPins hw hlen ?_⟩
  rintro ⟨hnodup, hfree⟩
  rcases hshared with htwice | ⟨x, hx, htaken⟩
  · exact htwice hnodup
  · exact hfree x hx htaken

/-! ### Idle -/

/-- Settles O7: the idle step without a request is `hold`, its inputs consumed. -/
theorem idleWithoutRequestStaysIdle : Obligations.IdleWithoutRequestStaysIdle :=
  fun _ hr hp hv => step_of_idle_without_request hr hp hv

end Sys2Proof.Machine
end

section
/-! SUPPORT. Proofs for 60_exceptions.md section 2, the end of the inputs: a faulted instance that no reset can reach
any more stops with the fault of its line (O46). -/

namespace Sys2Proof.Machine

variable {s : State} {l : Line}

theorem dead_of_world_nil (l : Line) (hw : s.world = []) : s.dead l = .fault (.lineSetFault l) := by
  rw [State.dead, hw]

theorem rest_of_faulted (hp : s.ph = .faulted l) : s.rest = s.dead l := by
  rw [State.rest, hp]

theorem rst_of_world_nil (hw : s.world = []) : s.inp.rst = false := by
  rw [inp_of_nil hw]
  rfl

/-- Settles O46: without inputs there is no reset, and a faulted instance fetches nothing, so the step is that of the
dead block. -/
theorem faultedInstanceWithoutInputsStops : Obligations.FaultedInstanceWithoutInputsStops := by
  intro s l hp hw
  have hfetch : s.fetch = none := fetch_of_isFaulted (by rw [hp]; rfl)
  calc step s
      = advanceOutcome s.rest := step_of_noFetch (rst_of_world_nil hw) hfetch
    _ = advanceOutcome (.fault (.lineSetFault l)) := by rw [rest_of_faulted hp, dead_of_world_nil l hw]
    _ = .fault (.lineSetFault l) := advanceOutcome_fault _

end Sys2Proof.Machine
end
